-- ==== Sys2Proof/Word.lean ====
section
/-!
DEFINITION. The value types of the core: bytes, words, and the 4 by 4 byte matrix of the state register
(00_scope.md rules R10, R12, R13). How bytes, words and buses convert into one another is in Machine/Bytes.lean.
-/
namespace Sys2Proof

/-- An unsigned 8-bit value (R10), an element of GF(2^8) (R110). -/
abbrev Byte := BitVec 8

/-- An unsigned 32-bit value (R10). -/
abbrev Word := BitVec 32

/-- One column of the state: the bytes of rows 0 to 3 (R13). -/
structure Column where
  r0 : Byte
  r1 : Byte
  r2 : Byte
  r3 : Byte
deriving DecidableEq, Repr, Inhabited

/-- The 16 bytes of a block read as a 4 by 4 matrix, column by column: flat index `i` is row `i mod 4`,
column `i div 4` (R13, R50). -/
structure AesState where
  c0 : Column
  c1 : Column
  c2 : Column
  c3 : Column
deriving DecidableEq, Repr, Inhabited

end Sys2Proof
end

