-- ==== Sys2Proof/Syntax.lean ====
section
/-!
DEFINITION. The instructions of both levels (30_encoding.md rule R80): five host commands and seven
micro-operations, one constructor per row of the opcode table, and the codes they are read from.
-/
namespace Sys2Proof

/-- The three key sizes (R1, R7, R25): the legal values of `ksize`. The value 3 is never held (R25), so it has no
constructor (notes/assumptions/19.md). -/
inductive KeySize where
  | k128
  | k192
  | k256
deriving DecidableEq, Repr, Inhabited

/-- The schedule select of ADD_ROUND_KEY (R86): `F` is the forward schedule `W`, `I` the inverse schedule `DW`. -/
inductive Sel where
  | F
  | I
deriving DecidableEq, Repr

/-- One constructor per row of the opcode table. A command carries the operand that acceptance samples from its bus
(R83, R84, U8); `base` of ADD_ROUND_KEY is a natural number (R10), at most 63 in a well-formed instruction (R86). -/
inductive Instr where
  | keyload128 (k0 k1 k2 k3 : Word)
  | keyload192 (k0 k1 k2 k3 k4 k5 : Word)
  | keyload256 (k0 k1 k2 k3 k4 k5 k6 k7 : Word)
  | cipher (block : AesState)
  | decipher (block : AesState)
  | subBytes
  | invSubBytes
  | shiftRows
  | invShiftRows
  | mixColumns
  | invMixColumns
  | addRoundKey (sel : Sel) (base : Nat)
deriving DecidableEq, Repr

/-- The seven micro-operations alone (R80, R87): what the orchestrator issues to the pipeline. -/
inductive Uop where
  | subBytes
  | invSubBytes
  | shiftRows
  | invShiftRows
  | mixColumns
  | invMixColumns
  | addRoundKey (sel : Sel) (base : Nat)
deriving DecidableEq, Repr

/-- A micro-operation as an instruction. -/
def Uop.toInstr : Uop → Instr
  | .subBytes => .subBytes
  | .invSubBytes => .invSubBytes
  | .shiftRows => .shiftRows
  | .invShiftRows => .invShiftRows
  | .mixColumns => .mixColumns
  | .invMixColumns => .invMixColumns
  | .addRoundKey sel base => .addRoundKey sel base

/-- What is decoded: a command word with the two operand buses as sampled at acceptance (R82 to R84, R235), or a
micro-operation word (R86). -/
inductive Code where
  | command (cmd : BitVec 3) (keyIn : BitVec 256) (blockIn : BitVec 128)
  | uop (word : BitVec 10)
deriving DecidableEq, Repr

/-- Why a code has no instruction, by name: a reserved command word (R89) or a reserved micro-operation word (R90). -/
inductive Reject where
  | reservedCommand (cmd : BitVec 3)
  | reservedUop (word : BitVec 10)
deriving DecidableEq, Repr

end Sys2Proof
end

