-- ==== Sys2Proof/Config.lean ====
section
/-!
DEFINITION. What the spec leaves to an implementation, and the free values: opaque constants without a body, so that
no proof can learn a value of one.
-/
namespace Sys2Proof

/-- What the state register holds when it has no architectural value: after a block command and after RESET
(10_state.md rules R21, R34; 93 U11). The argument is the number of the draw. FREE VALUE, notes/assumptions/7.md, 8.md. -/
opaque Config.freeState : Nat → AesState

/-- `ksize` after a RESET event (R34, 93 U5): unspecified. FREE VALUE, notes/assumptions/8.md. -/
opaque Config.freeKeySize : Nat → KeySize

/-- Word `i` of the forward schedule after a RESET event (R34, 93 U5, U18): unspecified, neither zero nor the old key
may be assumed. FREE VALUE, notes/assumptions/8.md. -/
opaque Config.freeForwardWord : Nat → Nat → Word

/-- Word `i` of the inverse schedule after a RESET event (R34, 93 U5, U18). FREE VALUE, notes/assumptions/8.md. -/
opaque Config.freeInverseWord : Nat → Nat → Word

/-- What a read of a schedule word at an index the schedule does not hold gives, by index (R26, 93 U6): such a word
has no value. FREE VALUE, notes/assumptions/9.md. -/
opaque Config.absentWord : Nat → Word

/-- What a round constant at index 10 or above would be (R31): it does not exist and is never used.
FREE VALUE, notes/assumptions/9.md. -/
opaque Config.absentRcon : Nat → Word

/-- One less than `LAT_KEY` (R8, R240), so that `LAT_KEY` is at least 1. -/
opaque Config.latKeyLessOne : KeySize → Nat

/-- One less than `LAT_BLK` (R8, R240), so that `LAT_BLK` is at least 1. -/
opaque Config.latBlkLessOne : KeySize → Nat

/-- `LAT_KEY(Nk)`: the clock cycles from a key load's acceptance to its response, finite and at least 1 (R8, R240).
An open parameter: no rule and no definition of the model depends on it. -/
def Config.latKey (k : KeySize) : Nat := Config.latKeyLessOne k + 1

/-- `LAT_BLK(Nk)`: the clock cycles from a block command's acceptance to its response, finite and at least 1
(R8, R240). An open parameter: no rule and no definition of the model depends on it. -/
def Config.latBlk (k : KeySize) : Nat := Config.latBlkLessOne k + 1

end Sys2Proof
end

