-- ==== Sys2Proof/Machine/Bytes.lean ====
section
/-!
DEFINITION. The parameters of a key size, and how bytes, words, the state matrix and the buses convert into one
another (00_scope.md rules R7, R11 to R13; 20_memory.md rules R50 to R53). Byte order is decided here and nowhere else.
-/
namespace Sys2Proof

/-! ## Parameters of a key size (R7, R25) -/

/-- `ksize` as the 2-bit status value (R25): 0, 1, 2. -/
def KeySize.code : KeySize → BitVec 2
  | .k128 => 0
  | .k192 => 1
  | .k256 => 2

/-- `Nk = 4 + 2·ksize`, the key length in words (R25, R82). -/
def KeySize.nk (k : KeySize) : Nat := 4 + 2 * k.code.toNat

/-- `Nr = Nk + 6`, the round count (R7). -/
def KeySize.nr (k : KeySize) : Nat := k.nk + 6

/-- `WLEN = 4·(Nr+1)`, the schedule word count (R7, R165). -/
def KeySize.wlen (k : KeySize) : Nat := 4 * (k.nr + 1)

/-! ## Bytes of a word (R12, R51) -/

/-- The most significant byte, `w[31:24]`. -/
def b0 (w : Word) : Byte := w.extractLsb' 24 8

/-- `w[23:16]`. -/
def b1 (w : Word) : Byte := w.extractLsb' 16 8

/-- `w[15:8]`. -/
def b2 (w : Word) : Byte := w.extractLsb' 8 8

/-- The least significant byte, `w[7:0]`. -/
def b3 (w : Word) : Byte := w.extractLsb' 0 8

/-- `word_be(x0, x1, x2, x3)`: the word whose most significant byte is `x0` (R12). -/
def wordBe (x0 x1 x2 x3 : Byte) : Word := x0 ++ x1 ++ x2 ++ x3

/-! ## Columns and the state matrix (R13, R50) -/

/-- A word laid onto a column: its most significant byte is row 0 (R51, R136, R137). -/
def Column.ofWord (w : Word) : Column := ⟨b0 w, b1 w, b2 w, b3 w⟩

/-- A column read as a word, row 0 most significant (R51). -/
def Column.toWord (c : Column) : Word := wordBe c.r0 c.r1 c.r2 c.r3

/-- The byte of row `r`. -/
def Column.row (c : Column) : Fin 4 → Byte
  | 0 => c.r0
  | 1 => c.r1
  | 2 => c.r2
  | 3 => c.r3

/-- Column `c` of the state. -/
def AesState.col (S : AesState) : Fin 4 → Column
  | 0 => S.c0
  | 1 => S.c1
  | 2 => S.c2
  | 3 => S.c3

/-- The byte at row `r`, column `c`: `S[r + 4·c]` (R13). -/
def AesState.at (S : AesState) (r c : Fin 4) : Byte := (S.col c).row r

/-- The state whose byte at row `r`, column `c` is `f r c`. -/
def AesState.ofFn (f : Fin 4 → Fin 4 → Byte) : AesState :=
  let column (c : Fin 4) : Column := ⟨f 0 c, f 1 c, f 2 c, f 3 c⟩
  ⟨column 0, column 1, column 2, column 3⟩

/-- The state whose column `c` is `g` of the old column `c`: four independent lanes (R139). -/
def AesState.mapCols (g : Column → Column) (S : AesState) : AesState :=
  ⟨g S.c0, g S.c1, g S.c2, g S.c3⟩

/-- The byte at flat index `i`: row `i mod 4`, column `i div 4` (R13). -/
def AesState.flat (S : AesState) (i : Fin 16) : Byte :=
  S.at ⟨i.val % 4, Nat.mod_lt _ (by decide)⟩ ⟨i.val / 4, by omega⟩

/-! ## Buses (R53, R83, R84) -/

/-- Byte `i` of a block on a 128-bit bus: bits `[127−8i : 120−8i]` (R53, R84). -/
def busByte (bus : BitVec 128) (i : Nat) : Byte := bus.extractLsb' (120 - 8 * i) 8

/-- The state loaded from `block_in` (R84). -/
def AesState.ofBus (bus : BitVec 128) : AesState :=
  AesState.ofFn fun r c => busByte bus (r.val + 4 * c.val)

/-- The state driven onto `block_out`, byte 0 most significant (R84). -/
def AesState.toBus (S : AesState) : BitVec 128 :=
  S.c0.toWord ++ S.c1.toWord ++ S.c2.toWord ++ S.c3.toWord

/-- Key word `j` on the 256-bit key bus: bits `[255−32j : 224−32j]` (R53, R83). -/
def busWord (bus : BitVec 256) (j : Nat) : Word := bus.extractLsb' (224 - 32 * j) 32

end Sys2Proof
end

