-- ==== Sys2Proof/Machine/State.lean ====
section
/-!
DEFINITION. The state of the core (10_state.md rule R20), why a step can stop, and the state after reset (R34).
-/
namespace Sys2Proof.Machine

/-- The orchestrator's sequencer position `(phase, i, r)` (R23). The counters exist only in the phases that use them:
`i` (6 bits, largest value 59) in KEYEXP and INVKEYEXP, `r` (4 bits, largest value 14) in ENC and DEC. -/
inductive Sequencer where
  | idle
  | keyexp (i : Nat)
  | invkeyexp (i : Nat)
  | enc (r : Nat)
  | dec (r : Nat)
deriving DecidableEq, Repr

/-- One response (R85, R200). Only the OK of CIPHER and DECIPHER carries a block (93 U7): in every other response
`block_out` may hold any value and the host must not use it. -/
inductive Response where
  | ok
  | okBlock (blockOut : BitVec 128)
  | errBadCmd
  | errNoKey
  | errFault
deriving DecidableEq, Repr

/-- What the host does to the core (R9, R35): it presents a command, whose word and operand buses are sampled at
acceptance (R235), or asserts reset between two commands (R230). -/
inductive HostEvent where
  | command (cmd : BitVec 3) (keyIn : BitVec 256) (blockIn : BitVec 128)
  | reset
deriving DecidableEq, Repr

/-- Why the machine stops with a fault. No constructor: nothing in this core is stuck (R238; 93 section 1). A bounds
violation sets the `fault` flag and is a NEXT state (R203), and a faulted core still answers. Nobody raises a `Fault`,
which is neither safe nor unsafe (notes/assumptions/14.md). -/
inductive Fault where
deriving DecidableEq, Repr

/-- Why a step has no meaning. -/
inductive Refusal where
  /-- Raised by an arm of `exec` for an instruction without a meaning yet. Safe: the model stops. No arm raises it. -/
  | notModelled (mnemonic : String)
  /-- Raised by `step` when a reserved micro-operation word stands at the pipeline's input: the spec leaves it without
  meaning and no orchestrator program holds one (R90, 93 U4). Safe: the model stops. -/
  | reservedUop (word : BitVec 10)
deriving DecidableEq, Repr

/-- The complete state (R20), then three fields of the model's own: `host`, `uopIn`, `draws`. -/
structure State where
  /-- Key valid: a KEYLOAD has completed since the last reset (R24). -/
  kv : Bool
  /-- Sticky: a bounds violation has occurred since the last reset (R24, R203). -/
  fault : Bool
  /-- The key size of the last KEYLOAD (R25). -/
  ksize : KeySize
  /-- The forward key schedule, `WLEN` words (R26). -/
  W : List Word
  /-- The inverse key schedule, `WLEN` words (R27). -/
  DW : List Word
  /-- The state register, 16 bytes; no architectural value between block commands (R21). -/
  S : AesState
  /-- The key input; it holds words only inside a KEYLOAD (R22). -/
  K : List Word
  /-- The sequencer position (R23). -/
  seq : Sequencer
  /-- The response outputs; `none` while `rsp_valid` is 0 (R81, R85). -/
  rsp : Option Response
  /-- The model's own: the host's events still to come, first one first (R35; notes/assumptions/2.md). -/
  host : List HostEvent
  /-- The model's own: micro-operation words presented to the pipeline one at a time (R140, 95 P5 and P6;
  notes/assumptions/1.md). Empty whenever the host alone drives the core. -/
  uopIn : List (BitVec 10)
  /-- The model's own: how many free values have been drawn (notes/assumptions/7.md). -/
  draws : Nat
deriving DecidableEq, Repr

/-- The state after reset (R34). The spec gives `kv`, `fault`, the idle sequencer and that no response is pending.
`ksize`, `W`, `DW` and `S` are unspecified there: their values here are DESIGN CHOICES
(notes/assumptions/4.md, 5.md, 6.md). On the number of words in `W` and `DW` rests that `Memory.wf` holds here; on the words
and on `S` no statement rests. -/
def State.reset : State where
  kv := false
  fault := false
  ksize := .k128
  W := List.replicate 44 0xffffffff
  DW := List.replicate 44 0xffffffff
  S := ⟨⟨0, 0, 0, 0⟩, ⟨0, 0, 0, 0⟩, ⟨0, 0, 0, 0⟩, ⟨0, 0, 0, 0⟩⟩
  K := []
  seq := .idle
  rsp := none
  host := []
  uopIn := []
  draws := 0

end Sys2Proof.Machine
end

