-- ==== Sys2Proof/Machine/Ops.lean ====
section
/-!
DEFINITION. The named operations over the core's registers and memories: every read of a schedule word and every
write of a field goes through one of these. Entering the fault state and leaving it by reset stand here too
(60_exceptions.md rules R203, R207, R208; 70_reset_and_hazards.md rule R230).
-/
namespace Sys2Proof.Machine

/-! ## Status values (R25) -/

/-- `NR`, derived from `ksize` (R25). -/
def State.nr (s : State) : Nat := s.ksize.nr

/-- `WLEN`, derived from `ksize` (R25, R165). -/
def State.wlen (s : State) : Nat := s.ksize.wlen

/-- The response code on `rsp_code` (R85, R200). -/
def Response.code : Response → BitVec 2
  | .ok => 0
  | .okBlock _ => 0
  | .errBadCmd => 1
  | .errNoKey => 2
  | .errFault => 3

/-! ## The schedule memories (R26, R27, R32) -/

/-- Word `i` of a schedule. An index the schedule does not hold has no value: a free value (R26, 93 U6;
notes/assumptions/9.md). -/
def scheduleWord (X : List Word) (i : Nat) : Word := X.getD i (Config.absentWord i)

/-- The schedule that `sel` names (R86, R166). -/
def State.schedule (s : State) : Sel → List Word
  | .F => s.W
  | .I => s.DW

/-- The canonical form of the schedule memories: exactly `WLEN` words each (R26, R27, 93 U6). -/
def Memory.wf (s : State) : Bool := decide (s.W.length = s.wlen) && decide (s.DW.length = s.wlen)

/-- `W[0..Nk−1] <- K[0..Nk−1]`: the schedule is replaced as a whole and begins with the key words (R26, R160). -/
def State.seedForward (s : State) : State := { s with W := s.K }

/-- `W[i] <- v` for the next index `i` in ascending order (R32). -/
def State.writeForward (s : State) (v : Word) : State := { s with W := s.W ++ [v] }

/-- The inverse schedule is replaced as a whole, beginning with no word (R27). -/
def State.clearInverse (s : State) : State := { s with DW := [] }

/-- `DW[i] <- v` for the next index `i` in ascending order (R32). -/
def State.writeInverse (s : State) (v : Word) : State := { s with DW := s.DW ++ [v] }

/-! ## Registers -/

/-- The state register is replaced as a whole (R21, R56). -/
def State.setS (s : State) (S : AesState) : State := { s with S := S }

/-- `S` loses its architectural value at the end of a block command (R21): a free value (notes/assumptions/7.md). -/
def State.dropS (s : State) : State := { s with S := Config.freeState s.draws, draws := s.draws + 1 }

/-- The key input is sampled (R22). -/
def State.loadKey (s : State) (key : List Word) : State := { s with K := key }

/-- The key input is not retained after a KEYLOAD (R22; notes/assumptions/16.md). -/
def State.dropKey (s : State) : State := { s with K := [] }

/-- `Nk <- …` (R25, R181 to R183). -/
def State.setKsize (s : State) (k : KeySize) : State := { s with ksize := k }

/-- The sequencer moves (R23). -/
def State.setSeq (s : State) (q : Sequencer) : State := { s with seq := q }

/-- Where a loop over schedule words goes from index `i`: to the next index, or, after the last word, out of its phase
(R23: `i` runs to `WLEN − 1` and the loop ends there). -/
def State.advance (s : State) (phase : Nat → Sequencer) (i : Nat) (done : Sequencer) : State :=
  s.setSeq (if i + 1 < s.wlen then phase (i + 1) else done)

/-- `kv <- 1` (R24). -/
def State.setKv (s : State) : State := { s with kv := true }

/-- `respond(code, block)` (R14, R85). -/
def State.respond (s : State) (r : Response) : State := { s with rsp := some r }

/-! ## Entering and leaving the fault state -/

/-- A BoundsViolation (R203, R207): `fault <- 1`, the command in progress stops, the response is ERR_FAULT. `S` is not
written; `kv`, `ksize`, `W`, `DW` are not changed; nothing about the access is recorded. -/
def State.enterFault (s : State) : State := { s with fault := true, rsp := some .errFault, seq := .idle }

/-- The RESET event (R34, R230, R231), the only way out of the fault state (R208): `kv` and `fault` are 0, the sequencer
idles, no response is pending; `ksize`, `W`, `DW`, `S` are unspecified, so they get free values
(notes/assumptions/8.md); words still presented to the pipeline are abandoned with the command. -/
def State.resetCore (s : State) : State :=
  let k := Config.freeKeySize s.draws
  { s with
    kv := false
    fault := false
    ksize := k
    W := (List.range k.wlen).map (Config.freeForwardWord s.draws)
    DW := (List.range k.wlen).map (Config.freeInverseWord s.draws)
    S := Config.freeState s.draws
    K := []
    seq := .idle
    rsp := none
    uopIn := []
    draws := s.draws + 1 }

end Sys2Proof.Machine
end

