-- ==== Sys2Proof/Machine/Flags.lean ====
section
/-!
DEFINITION. The two flags and what reads them: the acceptance checks every command word goes through
(10_state.md rule R24; 43_orchestrator.md rule R180; 60_exceptions.md rule R206). No arithmetic reads or writes a flag.
-/
namespace Sys2Proof.Machine

/-- What acceptance distinguishes among command words (R180). -/
inductive CommandClass where
  | reserved
  | keyload
  | block
deriving DecidableEq, Repr

/-- `Accept(cmd)` (R180, R206): the refusal to answer, in the order ERR_FAULT, ERR_BADCMD, ERR_NOKEY, or `none` where
the command is performed. -/
def State.acceptance (s : State) (c : CommandClass) : Option Response :=
  if s.fault then some .errFault
  else match c with
    | .reserved => some .errBadCmd
    | .keyload => none
    | .block => if s.kv then none else some .errNoKey

/-- A command is refused with its response and no other change, or performed (R180). -/
def State.accept (s : State) (c : CommandClass) (perform : State → State) : State :=
  match s.acceptance c with
  | some r => s.respond r
  | none => perform s

/-- A reserved command word is accepted (R89, R201): refused in every state, so there is nothing to perform. -/
def State.acceptReserved (s : State) : State := s.accept .reserved id

end Sys2Proof.Machine
end

