-- ==== Sys2Proof/Machine/Field.lean ====
section
/-!
DEFINITION. Field arithmetic over GF(2^8) with reduction polynomial 0x11B, and the word helpers
(40_field_arithmetic.md). Every function is pure and total (R111).
-/
namespace Sys2Proof

/-- Multiply by 0x02: shift left, and XOR 0x1B where the top bit was 1 (R112). -/
def xtime (b : Byte) : Byte := if b.msb then (b <<< 1) ^^^ 0x1B else b <<< 1

/-- One round of the loop of R113: `acc` and `p` before bit `n` of `k` is looked at. -/
def gfMulStep (k : Byte) (acc p : Byte) (n : Nat) : Byte × Byte :=
  (if k.getLsbD n then acc ^^^ p else acc, xtime p)

/-- The field product `k•b` by shift-and-add over the bits of `k`, `n` from 0 to 7 (R113). -/
def gfMul (k b : Byte) : Byte :=
  ((List.range 8).foldl (fun ap n => gfMulStep k ap.1 ap.2 n) (0, b)).1

/-- `0x03•b` (R114). -/
def mul03 (b : Byte) : Byte := xtime b ^^^ b

/-- `0x09•b` (R115). -/
def mul09 (b : Byte) : Byte := xtime (xtime (xtime b)) ^^^ b

/-- `0x0B•b` (R116). -/
def mul0B (b : Byte) : Byte := xtime (xtime (xtime b)) ^^^ xtime b ^^^ b

/-- `0x0D•b` (R117). -/
def mul0D (b : Byte) : Byte := xtime (xtime (xtime b)) ^^^ xtime (xtime b) ^^^ b

/-- `0x0E•b` (R118). -/
def mul0E (b : Byte) : Byte := xtime (xtime (xtime b)) ^^^ xtime (xtime b) ^^^ xtime b

/-- Cyclic left rotation by one byte: the most significant byte moves to the least significant place (R119). -/
def rotWord (w : Word) : Word := wordBe (b1 w) (b2 w) (b3 w) (b0 w)

/-- Each byte through the forward substitution table, in its place (R120). -/
def subWord (w : Word) : Word := wordBe (sbox (b0 w)) (sbox (b1 w)) (sbox (b2 w)) (sbox (b3 w))

end Sys2Proof
end

