-- ==== Sys2Proof/Machine/Operands.lean ====
section
/-!
DEFINITION. The one operand form with a failure path: the windowed read of four schedule words
(42_key_schedule.md rule R166; 20_memory.md rules R54, R55). The bus operands of the commands are assembled by the
decoder (30_encoding.md rules R83, R84).
-/
namespace Sys2Proof.Machine

/-- Four consecutive schedule words (R166). -/
structure Window where
  k0 : Word
  k1 : Word
  k2 : Word
  k3 : Word
deriving DecidableEq, Repr

/-- The four words of a schedule from index `base` on. -/
def windowAt (X : List Word) (base : Nat) : Window :=
  ⟨scheduleWord X base, scheduleWord X (base + 1), scheduleWord X (base + 2), scheduleWord X (base + 3)⟩

/-- `KeyWindow(sel, base)` (R166): `none` is the bounds violation, raised exactly where `base + 4 > WLEN`. There is no
alignment check (R54) and the read has no side effect (R57). -/
def State.keyWindow (s : State) (sel : Sel) (base : Nat) : Option Window :=
  if base + 4 > s.wlen then none else some (windowAt (s.schedule sel) base)

end Sys2Proof.Machine
end

