-- ==== Sys2Proof/Machine/Transform.lean ====
section
/-!
DEFINITION. The state transform pipeline (41_state_transform.md): the seven micro-operations as functions on the state
matrix, the single-word inverse mix, the fused rounds, and the meanings of the seven instructions.
-/
namespace Sys2Proof

/-! ## Substitution (R130, R131) -/

/-- Every byte through `SBOX` (R130). -/
def AesState.subBytes (S : AesState) : AesState := .ofFn fun r c => sbox (S.at r c)

/-- Every byte through `INV_SBOX` (R131). -/
def AesState.invSubBytes (S : AesState) : AesState := .ofFn fun r c => invSbox (S.at r c)

/-! ## Row shifts (R132, R133); arithmetic on column numbers is mod 4 -/

/-- Row `r` is shifted left by `r`: the byte of column `c + r` arrives in column `c` (R132). -/
def AesState.shiftRows (S : AesState) : AesState := .ofFn fun r c => S.at r (c + r)

/-- Row `r` is shifted right by `r` (R133). -/
def AesState.invShiftRows (S : AesState) : AesState := .ofFn fun r c => S.at r (c - r)

/-! ## Column mixing (R134, R135, R137) -/

/-- `mix_col` (R134). -/
def mixCol (c : Column) : Column where
  r0 := xtime c.r0 ^^^ mul03 c.r1 ^^^ c.r2 ^^^ c.r3
  r1 := c.r0 ^^^ xtime c.r1 ^^^ mul03 c.r2 ^^^ c.r3
  r2 := c.r0 ^^^ c.r1 ^^^ xtime c.r2 ^^^ mul03 c.r3
  r3 := mul03 c.r0 ^^^ c.r1 ^^^ c.r2 ^^^ xtime c.r3

/-- `inv_mix_col` (R135; 90_conflicts.md C5). -/
def invMixCol (c : Column) : Column where
  r0 := mul0E c.r0 ^^^ mul0B c.r1 ^^^ mul0D c.r2 ^^^ mul09 c.r3
  r1 := mul09 c.r0 ^^^ mul0E c.r1 ^^^ mul0B c.r2 ^^^ mul0D c.r3
  r2 := mul0D c.r0 ^^^ mul09 c.r1 ^^^ mul0E c.r2 ^^^ mul0B c.r3
  r3 := mul0B c.r0 ^^^ mul0D c.r1 ^^^ mul09 c.r2 ^^^ mul0E c.r3

/-- The four columns independently (R134). -/
def AesState.mixColumns (S : AesState) : AesState := S.mapCols mixCol

/-- The four columns independently (R135). -/
def AesState.invMixColumns (S : AesState) : AesState := S.mapCols invMixCol

/-- `inv_mix_column_single_word(w)`: the word is a column with its most significant byte in row 0 (R137). -/
def invMixWord (w : Word) : Word := (invMixCol (Column.ofWord w)).toWord

/-! ## Round-key addition (R136) -/

/-- XOR of two columns, byte by byte. -/
def Column.xor (a b : Column) : Column := ⟨a.r0 ^^^ b.r0, a.r1 ^^^ b.r1, a.r2 ^^^ b.r2, a.r3 ^^^ b.r3⟩

/-- Word `k[c]` is XORed into column `c`, its most significant byte into row 0 (R136). -/
def AesState.addRoundKey (S : AesState) (k : Machine.Window) : AesState :=
  ⟨S.c0.xor (Column.ofWord k.k0), S.c1.xor (Column.ofWord k.k1), S.c2.xor (Column.ofWord k.k2),
   S.c3.xor (Column.ofWord k.k3)⟩

/-! ## Round datapaths (R141, R142) -/

/-- `round_fwd(S, k)` (R141). -/
def roundFwd (S : AesState) (k : Machine.Window) : AesState := S.subBytes.shiftRows.mixColumns.addRoundKey k

/-- `final_fwd(S, k)`, without the column mix (R141). -/
def finalFwd (S : AesState) (k : Machine.Window) : AesState := S.subBytes.shiftRows.addRoundKey k

/-- `round_inv(S, k)` (R142). -/
def roundInv (S : AesState) (k : Machine.Window) : AesState :=
  S.invSubBytes.invShiftRows.invMixColumns.addRoundKey k

/-- `final_inv(S, k)` (R142). -/
def finalInv (S : AesState) (k : Machine.Window) : AesState := S.invSubBytes.invShiftRows.addRoundKey k

namespace Machine

/-! ## Executing a micro-operation (R140) -/

/-- An operand-free micro-operation replaces `S` and touches nothing else. While `fault` is 1 nothing is performed
(R208; notes/assumptions/10.md). -/
def State.transform (s : State) (f : AesState → AesState) : State := if s.fault then s else s.setS (f s.S)

/-- ADD_ROUND_KEY (R136): the window is read first; on a bounds violation `S` is not written and the core enters the
fault state (R203). -/
def State.addRoundKey (s : State) (sel : Sel) (base : Nat) : State :=
  if s.fault then s
  else match s.keyWindow sel base with
    | some k => s.setS (s.S.addRoundKey k)
    | none => s.enterFault

/-- The pipeline executes one micro-operation (R140). -/
def State.runUop (s : State) : Uop → State
  | .subBytes => s.transform AesState.subBytes
  | .invSubBytes => s.transform AesState.invSubBytes
  | .shiftRows => s.transform AesState.shiftRows
  | .invShiftRows => s.transform AesState.invShiftRows
  | .mixColumns => s.transform AesState.mixColumns
  | .invMixColumns => s.transform AesState.invMixColumns
  | .addRoundKey sel base => s.addRoundKey sel base

/-! ## The meanings -/

/-- SUB_BYTES (R130). -/
def execSubBytes (s : State) : Host.Outcome State Fault Refusal := .next (s.runUop .subBytes)

/-- INV_SUB_BYTES (R131). -/
def execInvSubBytes (s : State) : Host.Outcome State Fault Refusal := .next (s.runUop .invSubBytes)

/-- SHIFT_ROWS (R132). -/
def execShiftRows (s : State) : Host.Outcome State Fault Refusal := .next (s.runUop .shiftRows)

/-- INV_SHIFT_ROWS (R133). -/
def execInvShiftRows (s : State) : Host.Outcome State Fault Refusal := .next (s.runUop .invShiftRows)

/-- MIX_COLUMNS (R134). -/
def execMixColumns (s : State) : Host.Outcome State Fault Refusal := .next (s.runUop .mixColumns)

/-- INV_MIX_COLUMNS (R135). -/
def execInvMixColumns (s : State) : Host.Outcome State Fault Refusal := .next (s.runUop .invMixColumns)

/-- ADD_ROUND_KEY (R136). -/
def execAddRoundKey (sel : Sel) (base : Nat) (s : State) : Host.Outcome State Fault Refusal :=
  .next (s.runUop (.addRoundKey sel base))

end Machine

end Sys2Proof
end

