-- ==== Sys2Proof/Machine/KeySchedule.lean ====
section
/-!
DEFINITION. The key schedule and the inverse key schedule (42_key_schedule.md rules R160 to R164), run by the sequencer
word by word, and the meanings of the three key loads (43_orchestrator.md rules R181 to R183).
-/
namespace Sys2Proof.Machine

/-- The word `W[i]` for `i ≥ Nk` (R160): rotate, substitute and add the round constant at multiples of `Nk`, substitute
only at `i mod Nk = 4` of the 256-bit size (R161, R162). -/
def expandWord (k : KeySize) (W : List Word) (i : Nat) : Word :=
  let prev := scheduleWord W (i - 1)
  let temp :=
    if i % k.nk = 0 then subWord (rotWord prev) ^^^ rcon (i / k.nk - 1)
    else if k.nk = 8 ∧ i % k.nk = 4 then subWord prev
    else prev
  scheduleWord W (i - k.nk) ^^^ temp

/-- One step of phase KEYEXP: `W[i]` is written and `i` advances; after `W[WLEN−1]` phase INVKEYEXP begins
(R23, R160, R164; notes/assumptions/24.md). -/
def keyexpStep (s : State) : State :=
  match s.seq with
  | .keyexp i => (s.writeForward (expandWord s.ksize s.W i)).advance .keyexp i (.invkeyexp 0)
  | .idle | .invkeyexp _ | .enc _ | .dec _ => s

/-- One step of phase INVKEYEXP: `DW[i]` is written and `i` advances; after `DW[WLEN−1]` the sequencer idles
(R23, R164; notes/assumptions/24.md). -/
def invkeyexpStep (s : State) : State :=
  match s.seq with
  | .invkeyexp i => (s.writeInverse (invMixWord (scheduleWord s.W i))).advance .invkeyexp i .idle
  | .idle | .keyexp _ | .enc _ | .dec _ => s

/-- `key_expand(K, Nk)` (R160): seed with the key words, then `i` from `Nk` to `WLEN − 1`. -/
def State.keyExpand (s : State) : State :=
  keyexpStep^[s.wlen - s.ksize.nk] (s.seedForward.setSeq (.keyexp s.ksize.nk))

/-- `inv_key_expand(W)` (R164): every word, `i` from 0 to `WLEN − 1`. -/
def State.invKeyExpand (s : State) : State :=
  invkeyexpStep^[s.wlen] (s.clearInverse.setSeq (.invkeyexp 0))

/-- A key load is performed (R181 to R183): the key size and the key are taken, both schedules built, forward then inverse
(R168), and only then `kv` is set; the response is OK. -/
def State.performKeyload (k : KeySize) (key : List Word) (s : State) : State :=
  ((s.setKsize k).loadKey key).keyExpand.invKeyExpand.setKv.dropKey.respond .ok

/-- KEYLOAD128 (R181). -/
def execKeyload128 (k0 k1 k2 k3 : Word) (s : State) : Host.Outcome State Fault Refusal :=
  .next (s.accept .keyload (State.performKeyload .k128 [k0, k1, k2, k3]))

/-- KEYLOAD192 (R182). -/
def execKeyload192 (k0 k1 k2 k3 k4 k5 : Word) (s : State) : Host.Outcome State Fault Refusal :=
  .next (s.accept .keyload (State.performKeyload .k192 [k0, k1, k2, k3, k4, k5]))

/-- KEYLOAD256 (R183). -/
def execKeyload256 (k0 k1 k2 k3 k4 k5 k6 k7 : Word) (s : State) : Host.Outcome State Fault Refusal :=
  .next (s.accept .keyload (State.performKeyload .k256 [k0, k1, k2, k3, k4, k5, k6, k7]))

end Sys2Proof.Machine
end

