-- ==== Sys2Proof/Machine/Orchestrator.lean ====
section
/-!
DEFINITION. The round orchestrator (43_orchestrator.md): the micro-operation programs of the two block commands
(R184, R185, R189, R190), how they are issued to the pipeline, and the meanings of CIPHER and DECIPHER.
-/
namespace Sys2Proof.Machine

/-- The program of CIPHER for round count `nr` (R184, R189), each micro-operation with its round number (R23). -/
def cipherProgram (nr : Nat) : List (Nat × Uop) :=
  [(0, .addRoundKey .F 0)] ++
  (List.range' 1 (nr - 1)).flatMap (fun r =>
    [(r, .subBytes), (r, .shiftRows), (r, .mixColumns), (r, .addRoundKey .F (4 * r))]) ++
  [(nr, .subBytes), (nr, .shiftRows), (nr, .addRoundKey .F (4 * nr))]

/-- The program of DECIPHER for round count `nr` (R185, R190): forward-schedule words first and last, inverse-schedule
words in the middle rounds, which run downwards. -/
def decipherProgram (nr : Nat) : List (Nat × Uop) :=
  [(nr, .addRoundKey .F (4 * nr))] ++
  (List.range' 1 (nr - 1)).reverse.flatMap (fun r =>
    [(r, .invSubBytes), (r, .invShiftRows), (r, .invMixColumns), (r, .addRoundKey .I (4 * r))]) ++
  [(0, .invSubBytes), (0, .invShiftRows), (0, .addRoundKey .F 0)]

/-- One micro-operation of a command is issued at its sequencer position (R23, R140). After a bounds violation the
command has stopped and nothing more is issued (R203). -/
def State.issue (phase : Nat → Sequencer) (s : State) (step : Nat × Uop) : State :=
  if s.fault then s else (s.setSeq (phase step.1)).runUop step.2

/-- The end of a block command: the response is OK with `S` on `block_out` (R84, R184, R185), or ERR_FAULT as already
given by the bounds violation (R203). Either way `S` is not retained (R21). -/
def State.finishBlock (s : State) : State :=
  if s.fault then s.dropS else ((s.respond (.okBlock s.S.toBus)).setSeq .idle).dropS

/-- A block command is performed: the block is loaded into `S`, the program is issued strictly in order (R140), and the
command ends. -/
def State.performBlock (phase : Nat → Sequencer) (program : List (Nat × Uop)) (block : AesState) (s : State) : State :=
  (program.foldl (State.issue phase) (s.setS block)).finishBlock

/-- CIPHER (R184). -/
def execCipher (block : AesState) (s : State) : Host.Outcome State Fault Refusal :=
  .next (s.accept .block (State.performBlock .enc (cipherProgram s.nr) block))

/-- DECIPHER (R185). -/
def execDecipher (block : AesState) (s : State) : Host.Outcome State Fault Refusal :=
  .next (s.accept .block (State.performBlock .dec (decipherProgram s.nr) block))

end Sys2Proof.Machine
end

