-- ==== Sys2Proof/Machine/Dispatch.lean ====
section
/-!
DEFINITION. One arm per instruction: which meaning runs it.
-/
namespace Sys2Proof.Machine

def exec (i : Instr) (s : State) : Host.Outcome State Fault Refusal :=
  match i with
  | .keyload128 k0 k1 k2 k3 => Sys2Proof.Machine.execKeyload128 k0 k1 k2 k3 s
  | .keyload192 k0 k1 k2 k3 k4 k5 => Sys2Proof.Machine.execKeyload192 k0 k1 k2 k3 k4 k5 s
  | .keyload256 k0 k1 k2 k3 k4 k5 k6 k7 => Sys2Proof.Machine.execKeyload256 k0 k1 k2 k3 k4 k5 k6 k7 s
  | .cipher block => Sys2Proof.Machine.execCipher block s
  | .decipher block => Sys2Proof.Machine.execDecipher block s
  | .subBytes => Sys2Proof.Machine.execSubBytes s
  | .invSubBytes => Sys2Proof.Machine.execInvSubBytes s
  | .shiftRows => Sys2Proof.Machine.execShiftRows s
  | .invShiftRows => Sys2Proof.Machine.execInvShiftRows s
  | .mixColumns => Sys2Proof.Machine.execMixColumns s
  | .invMixColumns => Sys2Proof.Machine.execInvMixColumns s
  | .addRoundKey sel base => Sys2Proof.Machine.execAddRoundKey sel base s

end Sys2Proof.Machine
end

