-- ==== Sys2Proof/WellFormed.lean ====
section
/-!
DEFINITION. Which instructions have a code. The operand types already exclude wrong key and block lengths
(30_encoding.md rule R91), so the one check left is the width of `base`.
-/
namespace Sys2Proof

/-- `base` of ADD_ROUND_KEY is an unsigned value 0..63 (R86). Every other operand is a fixed-width value (R91). -/
def wellFormed : Instr → Bool
  | .keyload128 _ _ _ _ => true
  | .keyload192 _ _ _ _ _ _ => true
  | .keyload256 _ _ _ _ _ _ _ _ => true
  | .cipher _ => true
  | .decipher _ => true
  | .subBytes => true
  | .invSubBytes => true
  | .shiftRows => true
  | .invShiftRows => true
  | .mixColumns => true
  | .invMixColumns => true
  | .addRoundKey _ base => decide (base < 64)

end Sys2Proof
end

