-- ==== Sys2Proof/Decode.lean ====
section
/-!
DEFINITION. Decoding of command words and micro-operation words, total and rejecting by name, and the encoder
(30_encoding.md rules R82 to R94).
-/
namespace Sys2Proof

/-- Format CMD (R82): `cmd[2]` is the class, `cmd[1:0]` the key size code or the direction. The operand is assembled
from its bus (R83, R84); the other bus, and the key bits below `256 − 32·Nk`, are ignored. -/
def decodeCommand (cmd : BitVec 3) (keyIn : BitVec 256) (blockIn : BitVec 128) : Except Reject Instr :=
  let cls : BitVec 1 := cmd.extractLsb' 2 1
  let sub : BitVec 2 := cmd.extractLsb' 0 2
  if cls = 0 then
    if sub = 0 then
      .ok (.keyload128 (busWord keyIn 0) (busWord keyIn 1) (busWord keyIn 2) (busWord keyIn 3))
    else if sub = 1 then
      .ok (.keyload192 (busWord keyIn 0) (busWord keyIn 1) (busWord keyIn 2) (busWord keyIn 3)
        (busWord keyIn 4) (busWord keyIn 5))
    else if sub = 2 then
      .ok (.keyload256 (busWord keyIn 0) (busWord keyIn 1) (busWord keyIn 2) (busWord keyIn 3)
        (busWord keyIn 4) (busWord keyIn 5) (busWord keyIn 6) (busWord keyIn 7))
    else .error (.reservedCommand cmd)
  else
    if sub = 0 then .ok (.cipher (AesState.ofBus blockIn))
    else if sub = 1 then .ok (.decipher (AesState.ofBus blockIn))
    else .error (.reservedCommand cmd)

/-- Format UOP (R86, R87): `op = uop[9:7]`, `sel = uop[6]`, `base = uop[5:0]`. The six operand-free operations
need `sel` and `base` zero; everything else is reserved (R90). -/
def decodeUop (word : BitVec 10) : Except Reject Instr :=
  let op : BitVec 3 := word.extractLsb' 7 3
  let sel : BitVec 1 := word.extractLsb' 6 1
  let base : BitVec 6 := word.extractLsb' 0 6
  if op = 6 then .ok (.addRoundKey (if sel = 0 then .F else .I) base.toNat)
  else if sel = 0 ∧ base = 0 then
    if op = 0 then .ok .subBytes
    else if op = 1 then .ok .invSubBytes
    else if op = 2 then .ok .shiftRows
    else if op = 3 then .ok .invShiftRows
    else if op = 4 then .ok .mixColumns
    else if op = 5 then .ok .invMixColumns
    else .error (.reservedUop word)
  else .error (.reservedUop word)

/-- The decoder of both levels. -/
def decode : Code → Except Reject Instr
  | .command cmd keyIn blockIn => decodeCommand cmd keyIn blockIn
  | .uop word => decodeUop word

/-! ## The encoder -/

/-- A word of format CMD (R82). -/
def commandWord (cls : BitVec 1) (sub : BitVec 2) : BitVec 3 := cls ++ sub

/-- A word of format UOP (R86). -/
def uopWord (op : BitVec 3) (sel : BitVec 1) (base : BitVec 6) : BitVec 10 := op ++ sel ++ base

/-- `sel` as a bit (R86). -/
def Sel.bit : Sel → BitVec 1
  | .F => 0
  | .I => 1

/-- The 10-bit word of a micro-operation (R86, R87). -/
def Uop.word : Uop → BitVec 10
  | .subBytes => uopWord 0 0 0
  | .invSubBytes => uopWord 1 0 0
  | .shiftRows => uopWord 2 0 0
  | .invShiftRows => uopWord 3 0 0
  | .mixColumns => uopWord 4 0 0
  | .invMixColumns => uopWord 5 0 0
  | .addRoundKey sel base => uopWord 6 sel.bit (BitVec.ofNat 6 base)

/-- The code of an instruction, written from the tables of R82, R83, R84 and R87; ignored bits and the unused bus are
zeros. -/
def encode : Instr → Code
  | .keyload128 k0 k1 k2 k3 => .command (commandWord 0 0) (k0 ++ k1 ++ k2 ++ k3 ++ (0 : BitVec 128)) 0
  | .keyload192 k0 k1 k2 k3 k4 k5 =>
      .command (commandWord 0 1) (k0 ++ k1 ++ k2 ++ k3 ++ k4 ++ k5 ++ (0 : BitVec 64)) 0
  | .keyload256 k0 k1 k2 k3 k4 k5 k6 k7 =>
      .command (commandWord 0 2) (k0 ++ k1 ++ k2 ++ k3 ++ k4 ++ k5 ++ k6 ++ k7) 0
  | .cipher block => .command (commandWord 1 0) 0 block.toBus
  | .decipher block => .command (commandWord 1 1) 0 block.toBus
  | .subBytes => .uop (Uop.word .subBytes)
  | .invSubBytes => .uop (Uop.word .invSubBytes)
  | .shiftRows => .uop (Uop.word .shiftRows)
  | .invShiftRows => .uop (Uop.word .invShiftRows)
  | .mixColumns => .uop (Uop.word .mixColumns)
  | .invMixColumns => .uop (Uop.word .invMixColumns)
  | .addRoundKey sel base => .uop (Uop.word (.addRoundKey sel base))

/-! ## Table words -/

/-- The code whose bits are `w` in a row of `nbits` bits of the opcode table: a row of format CMD (3 bits, one byte) with
both buses zero, or a row of format UOP (10 bits, two bytes). No code where `w` does not fit the port. -/
def codeOfTableWord (nbits w : Nat) : Option Code :=
  if nbits = 3 ∨ nbits = 8 then
    if w < 8 then some (.command (BitVec.ofNat 3 w) 0 0) else none
  else if nbits = 10 ∨ nbits = 16 then
    if w < 1024 then some (.uop (BitVec.ofNat 10 w)) else none
  else none

/-- The instruction the decoder reads from a word numbered as the opcode table numbers it; operands are zeros. -/
def decodeTableWord (nbits w : Nat) : Option Instr :=
  match codeOfTableWord nbits w with
  | some c =>
    match decode c with
    | .ok i => some i
    | .error _ => none
  | none => none

end Sys2Proof
end

