-- ==== Sys2Proof/Machine/Fetch.lean ====
section
/-!
DEFINITION. What the core takes up next. The hardware fetches no instructions (10_state.md rule R23): the next thing
to do is a micro-operation word presented to the pipeline, else the host's next event.
-/
namespace Sys2Proof.Machine

/-- What is taken up, with the state it is run in. -/
inductive Fetched where
  | idle (s : State)
  | reset (s : State)
  | instr (i : Instr) (s : State)
  | reservedCommand (s : State)
  | reservedUop (word : BitVec 10)
deriving DecidableEq, Repr

/-- The last response has been shown for its one step and is gone: `rsp_valid` is high once per command (R81, R235). -/
def State.closeResponse (s : State) : State := { s with rsp := none }

/-- The host's events after the one taken up. -/
def State.setHost (s : State) (h : List HostEvent) : State := { s with host := h }

/-- The pipeline's words after the one taken up. -/
def State.setUopIn (s : State) (u : List (BitVec 10)) : State := { s with uopIn := u }

/-- A micro-operation word presented to the pipeline is decoded (R140); a reserved one has no meaning (R90). -/
def fetchUop (word : BitVec 10) (s : State) : Fetched :=
  match decodeUop word with
  | .ok i => .instr i s
  | .error _ => .reservedUop word

/-- The host's next event is taken up: RESET (R230), or a command word, decoded or reserved (R82, R89). -/
def fetchHost (e : HostEvent) (s : State) : Fetched :=
  match e with
  | .reset => .reset s
  | .command cmd keyIn blockIn =>
    match decodeCommand cmd keyIn blockIn with
    | .ok i => .instr i s
    | .error _ => .reservedCommand s

/-- What the core takes up next; with nothing to do it idles and keeps all retained state (R210). -/
def fetch (s : State) : Fetched :=
  match s.uopIn, s.host with
  | word :: rest, _ => fetchUop word (s.closeResponse.setUopIn rest)
  | [], e :: rest => fetchHost e (s.closeResponse.setHost rest)
  | [], [] => .idle s.closeResponse

end Sys2Proof.Machine
end

