-- ==== Sys2Proof/Machine/Step.lean ====
section
/-!
DEFINITION. One step of the core: one whole command, one micro-operation presented to the pipeline, a RESET, or an idle
moment (00_scope.md rule R9); and the placing of a table word where the next step takes it up.
-/
namespace Sys2Proof.Machine

/-- One step (R9). -/
def step (s : State) : Host.Outcome State Fault Refusal :=
  match fetch s with
  | .idle s' => .next s'
  | .reset s' => .next s'.resetCore
  | .instr i s' => exec i s'
  | .reservedCommand s' => .next s'.acceptReserved
  | .reservedUop word => .refused (.reservedUop word)

/-- `s` with a word of the opcode table where the next step takes it up: a command word at the head of the host's events,
with both buses zero and no micro-operation word before it, or a micro-operation word at the head of the pipeline's
input. A word that does not fit its port changes nothing. -/
def State.withFetchWord (s : State) (nbits w : Nat) : State :=
  match codeOfTableWord nbits w with
  | some (.command cmd keyIn blockIn) =>
    { s with uopIn := [], host := .command cmd keyIn blockIn :: s.host }
  | some (.uop word) => { s with uopIn := word :: s.uopIn }
  | none => s

end Sys2Proof.Machine
end

