-- ==== Sys2Proof/Safety.lean ====
section
/-!
DEFINITION. What counts as a good state and a good run, in the terms the statements use.
-/
namespace Sys2Proof

open Machine

/-- The forward schedule of `key` for key size `k`, as equations between its words: `WLEN` words, the key first, and
every later word by the branch its index takes (R160 to R163, R26). -/
structure IsForwardSchedule (k : KeySize) (key W : List Word) : Prop where
  length : W.length = k.wlen
  seed : ∀ j < k.nk, scheduleWord W j = scheduleWord key j
  atMultiple : ∀ i, k.nk ≤ i → i < k.wlen → i % k.nk = 0 →
    scheduleWord W i =
      scheduleWord W (i - k.nk) ^^^ (subWord (rotWord (scheduleWord W (i - 1))) ^^^ rcon (i / k.nk - 1))
  atFour : ∀ i, k.nk ≤ i → i < k.wlen → k = .k256 → i % k.nk = 4 →
    scheduleWord W i = scheduleWord W (i - k.nk) ^^^ subWord (scheduleWord W (i - 1))
  elsewhere : ∀ i, k.nk ≤ i → i < k.wlen → i % k.nk ≠ 0 → ¬ (k = .k256 ∧ i % k.nk = 4) →
    scheduleWord W i = scheduleWord W (i - k.nk) ^^^ scheduleWord W (i - 1)

/-- `DW` is the inverse schedule of `W`: every word transformed (R27, R164; 90_conflicts.md C4). -/
def IsInverseSchedule (W DW : List Word) : Prop := DW = W.map invMixWord

/-- The invariant of the retained state between two steps: the schedule memories have their canonical form, the sequencer
idles and no key input is held (R22, R23), and once a key is valid the schedules are those of the key in `W[0..Nk−1]`
(R24, R26, R27, R233). -/
structure CoreInv (s : State) : Prop where
  memory : Memory.wf s = true
  idle : s.seq = .idle
  noKey : s.K = []
  forward : s.kv = true → IsForwardSchedule s.ksize (s.W.take s.ksize.nk) s.W
  inverse : s.kv = true → IsInverseSchedule s.W s.DW

/-- The host alone drives the core: no micro-operation word stands at the pipeline's input (R80), and no bounds
violation has happened (R203). -/
structure HostDriven (s : State) : Prop where
  noUop : s.uopIn = []
  noFault : s.fault = false

/-- Two states that differ at most in what is unspecified or transient: `ksize`, `W`, `DW` while `kv` is 0 (R34), the
state register between commands (R21), and the model's count of draws. -/
structure SameToHost (s t : State) : Prop where
  kv : s.kv = t.kv
  fault : s.fault = t.fault
  ksize : s.kv = true → s.ksize = t.ksize
  forward : s.kv = true → s.W = t.W
  inverse : s.kv = true → s.DW = t.DW
  key : s.K = t.K
  seq : s.seq = t.seq
  rsp : s.rsp = t.rsp
  host : s.host = t.host
  sNoUop : s.uopIn = []
  tNoUop : t.uopIn = []

/-- The window of round `r` in a schedule: its four round-key words (R26, R184). -/
def roundKey (X : List Word) (r : Nat) : Window := windowAt X (4 * r)

/-- The state after the rounds 1 to `n` of CIPHER, from the state after round 0 (R184 step 2). -/
def forwardRounds (W : List Word) : Nat → AesState → AesState
  | 0, S => S
  | n + 1, S => roundFwd (forwardRounds W n S) (roundKey W (n + 1))

/-- The block CIPHER answers, as the composition of its rounds (R184, R141). -/
def cipherBlock (W : List Word) (nr : Nat) (block : AesState) : AesState :=
  finalFwd (forwardRounds W (nr - 1) (block.addRoundKey (roundKey W 0))) (roundKey W nr)

/-- The state after the rounds `n` down to 1 of DECIPHER (R185 step 2). -/
def inverseRounds (DW : List Word) : Nat → AesState → AesState
  | 0, S => S
  | n + 1, S => inverseRounds DW n (roundInv S (roundKey DW (n + 1)))

/-- The block DECIPHER answers, as the composition of its rounds: `W` first and last, `DW` between (R185, R142). -/
def decipherBlock (W DW : List Word) (nr : Nat) (block : AesState) : AesState :=
  finalInv (inverseRounds DW (nr - 1) (block.addRoundKey (roundKey W nr))) (roundKey W 0)

/-- Instructions run one after the other through `exec` (R140: strictly in order). -/
def runInstrs : List Instr → State → Host.Outcome State Fault Refusal
  | [], s => .next s
  | i :: rest, s =>
    match exec i s with
    | .next t => runInstrs rest t
    | .fault r => .fault r
    | .refused r => .refused r

/-- The three key loads among the instructions (R181 to R183). -/
def isKeyload : Instr → Bool
  | .keyload128 _ _ _ _ => true
  | .keyload192 _ _ _ _ _ _ => true
  | .keyload256 _ _ _ _ _ _ _ _ => true
  | .cipher _ | .decipher _ => false
  | .subBytes | .invSubBytes | .shiftRows | .invShiftRows | .mixColumns | .invMixColumns | .addRoundKey _ _ => false

/-- The reserved command words 011, 110, 111 (R89). -/
abbrev isReservedCommand (cmd : BitVec 3) : Prop := cmd = 0b011 ∨ cmd = 0b110 ∨ cmd = 0b111

/-- The command words of CIPHER and DECIPHER (R82). -/
abbrev isBlockCommand (cmd : BitVec 3) : Prop := cmd = 0b100 ∨ cmd = 0b101

/-- The reserved micro-operation words (R90): `op = 111`, or an operand-free `op` with `sel` or `base` not zero. -/
abbrev isReservedUop (word : BitVec 10) : Prop :=
  word.extractLsb' 7 3 = (7 : BitVec 3) ∨
  (word.extractLsb' 7 3 ≠ (6 : BitVec 3) ∧ word.extractLsb' 0 7 ≠ (0 : BitVec 7))

end Sys2Proof
end

