-- ==== Sys2Proof/Certificates/Slice0/Obligations.lean ====
section
/-!
DEFINITION. The statements for the provers, from the numbered rules of spec/. Each docstring names the rule it rests on.
-/
open Sys2Proof Sys2Proof.Machine

/-! ## Encoding -/

/-- Words written out from 30_encoding.md rules R82 to R87 decode to the instructions they stand for. -/
def Obligations.SampleWordsDecode : Prop :=
  decodeCommand 0b000 0x000102030405060708090a0b0c0d0e0fffffffffffffffffffffffffffffffff 0 =
    .ok (.keyload128 0x00010203 0x04050607 0x08090a0b 0x0c0d0e0f) ∧
  decodeCommand 0b001 0x000102030405060708090a0b0c0d0e0f1011121314151617ffffffffffffffff 0 =
    .ok (.keyload192 0x00010203 0x04050607 0x08090a0b 0x0c0d0e0f 0x10111213 0x14151617) ∧
  decodeCommand 0b010 0x000102030405060708090a0b0c0d0e0f101112131415161718191a1b1c1d1e1f 0 =
    .ok (.keyload256 0x00010203 0x04050607 0x08090a0b 0x0c0d0e0f 0x10111213 0x14151617 0x18191a1b 0x1c1d1e1f) ∧
  decodeCommand 0b100 0 0x00112233445566778899aabbccddeeff =
    .ok (.cipher ⟨⟨0x00, 0x11, 0x22, 0x33⟩, ⟨0x44, 0x55, 0x66, 0x77⟩, ⟨0x88, 0x99, 0xaa, 0xbb⟩,
      ⟨0xcc, 0xdd, 0xee, 0xff⟩⟩) ∧
  decodeCommand 0b101 0 0x00112233445566778899aabbccddeeff =
    .ok (.decipher ⟨⟨0x00, 0x11, 0x22, 0x33⟩, ⟨0x44, 0x55, 0x66, 0x77⟩, ⟨0x88, 0x99, 0xaa, 0xbb⟩,
      ⟨0xcc, 0xdd, 0xee, 0xff⟩⟩) ∧
  decodeUop 0x000 = .ok .subBytes ∧ decodeUop 0x080 = .ok .invSubBytes ∧
  decodeUop 0x100 = .ok .shiftRows ∧ decodeUop 0x180 = .ok .invShiftRows ∧
  decodeUop 0x200 = .ok .mixColumns ∧ decodeUop 0x280 = .ok .invMixColumns ∧
  decodeUop 0x304 = .ok (.addRoundKey .F 4) ∧ decodeUop 0x36c = .ok (.addRoundKey .I 44)

/-- Decoding the code of any well-formed instruction gives it back, every operand at every value (30_encoding.md
sections 2 to 4). -/
def Obligations.DecodeOfEncodeIsIdentity : Prop :=
  ∀ i : Instr, wellFormed i = true → decode (encode i) = .ok i

/-- A micro-operation word has one meaning: what it decodes to is well-formed and encodes back to the same word
(30_encoding.md section 4). -/
def Obligations.EncodeOfDecodedUopIsIdentity : Prop :=
  ∀ (word : BitVec 10) (i : Instr), decodeUop word = .ok i → wellFormed i = true ∧ encode i = .uop word

/-- A command word has one meaning: what it decodes to is well-formed and encodes back to the same command word, with
buses that decode to the same instruction (30_encoding.md sections 2 and 3). -/
def Obligations.EncodeOfDecodedCommandKeepsItsWord : Prop :=
  ∀ (cmd : BitVec 3) (keyIn : BitVec 256) (blockIn : BitVec 128) (i : Instr),
    decodeCommand cmd keyIn blockIn = .ok i →
    wellFormed i = true ∧ ∃ keyIn' blockIn', encode i = .command cmd keyIn' blockIn' ∧
      decodeCommand cmd keyIn' blockIn' = .ok i

/-- The decoder rejects a micro-operation word by name exactly where it is reserved (30_encoding.md section 5). That a step
on a reserved word, standing at the model's own port (log entry 1), ends in the refusal `reservedUop` is the model's reading
(log entry 13): the spec asks only that the decoder refuse the word. -/
def Obligations.ReservedUopWordsAreRefused : Prop :=
  (∀ word : BitVec 10, isReservedUop word →
    decodeUop word = .error (.reservedUop word) ∧
    ∀ (s : State) (rest : List (BitVec 10)), s.uopIn = word :: rest → step s = .refused (.reservedUop word)) ∧
  (∀ word : BitVec 10, ¬ isReservedUop word → ∃ i, decodeUop word = .ok i)

/-- Key bits below `256 − 32·Nk`, and the bus a command does not use, are ignored (30_encoding.md section 3; 93 U8). -/
def Obligations.UnusedBusBitsAreIgnored : Prop :=
  ∀ (k k' : BitVec 256) (b b' : BitVec 128),
    (k.extractLsb' 128 128 = k'.extractLsb' 128 128 → decodeCommand 0b000 k b = decodeCommand 0b000 k' b') ∧
    (k.extractLsb' 64 192 = k'.extractLsb' 64 192 → decodeCommand 0b001 k b = decodeCommand 0b001 k' b') ∧
    decodeCommand 0b010 k b = decodeCommand 0b010 k b' ∧
    decodeCommand 0b100 k b = decodeCommand 0b100 k' b ∧
    decodeCommand 0b101 k b = decodeCommand 0b101 k' b

/-- Block byte `i` stands at bits `[127−8i : 120−8i]` of the block buses, in both directions, and nothing of a block is
lost on the way in or out (20_memory.md section 1; 30_encoding.md section 3). -/
def Obligations.BlockBusPacking : Prop :=
  (∀ (bus : BitVec 128) (i : Fin 16), (AesState.ofBus bus).flat i = bus.extractLsb' (120 - 8 * i.val) 8) ∧
  (∀ (S : AesState) (i : Fin 16), S.toBus.extractLsb' (120 - 8 * i.val) 8 = S.flat i) ∧
  (∀ bus : BitVec 128, (AesState.ofBus bus).toBus = bus) ∧
  (∀ S : AesState, AesState.ofBus S.toBus = S)

/-! ## Steps, acceptance, conditions -/

/-- With no micro-operation word presented and a command at the head of the host's events that decodes to `i`, a step is
`exec i`; around it the step takes the event off and drops the last response (the model's list of events and its reading
of how long a response stands, log entries 2 and 3). -/
def Obligations.StepRunsTheDecodedCommand : Prop :=
  ∀ (s : State) (cmd : BitVec 3) (keyIn : BitVec 256) (blockIn : BitVec 128) (rest : List HostEvent) (i : Instr),
    s.uopIn = [] → s.host = .command cmd keyIn blockIn :: rest → decode (.command cmd keyIn blockIn) = .ok i →
    step s = exec i { s with host := rest, rsp := none }

/-- With a micro-operation word presented to the pipeline that decodes to `i`, a step is `exec i`; around it the step takes
the word off and drops the last response (41_state_transform.md section 7; the port is the model's, log entry 1, as is how
long a response stands, log entry 3). -/
def Obligations.StepRunsTheDecodedUop : Prop :=
  ∀ (s : State) (word : BitVec 10) (rest : List (BitVec 10)) (i : Instr),
    s.uopIn = word :: rest → decode (.uop word) = .ok i →
    step s = exec i { s with uopIn := rest, rsp := none }

/-- R180: the acceptance checks in their order; the first that applies decides the response, and nothing else changes.
A command that passes them is performed and answers OK. -/
def Obligations.AcceptanceOrder : Prop :=
  ∀ (s : State) (cmd : BitVec 3) (keyIn : BitVec 256) (blockIn : BitVec 128) (rest : List HostEvent),
    s.uopIn = [] → s.host = .command cmd keyIn blockIn :: rest →
    (s.fault = true → step s = .next { s with host := rest, rsp := some .errFault }) ∧
    (s.fault = false → isReservedCommand cmd →
      step s = .next { s with host := rest, rsp := some .errBadCmd }) ∧
    (s.fault = false → isBlockCommand cmd → s.kv = false →
      step s = .next { s with host := rest, rsp := some .errNoKey }) ∧
    (s.fault = false → ¬ isReservedCommand cmd → (isBlockCommand cmd → s.kv = true) →
      ∃ i t, decodeCommand cmd keyIn blockIn = .ok i ∧ step s = .next t ∧
        exec i { s with host := rest, rsp := none } = .next t ∧
        if isBlockCommand cmd then ∃ block, t.rsp = some (.okBlock block) else t.rsp = some .ok)

/-- R201: a reserved command word is refused with ERR_BADCMD (code 01): nothing is performed and no state of the core
changes. -/
def Obligations.ReservedCommandIsRefused : Prop :=
  Response.errBadCmd.code = 0b01 ∧
  ∀ (s : State) (cmd : BitVec 3) (keyIn : BitVec 256) (blockIn : BitVec 128) (rest : List HostEvent),
    isReservedCommand cmd → s.uopIn = [] → s.fault = false → s.host = .command cmd keyIn blockIn :: rest →
    decodeCommand cmd keyIn blockIn = .error (.reservedCommand cmd) ∧
    step s = .next { s with host := rest, rsp := some .errBadCmd }

/-- R202: CIPHER and DECIPHER while `kv` is 0 are refused with ERR_NOKEY (code 10) and no state change. -/
def Obligations.BlockCommandWithoutKeyIsRefused : Prop :=
  Response.errNoKey.code = 0b10 ∧
  ∀ (s : State) (block : AesState), s.fault = false → s.kv = false →
    exec (.cipher block) s = .next { s with rsp := some .errNoKey } ∧
    exec (.decipher block) s = .next { s with rsp := some .errNoKey }

/-- A bounds violation (60_exceptions.md sections 1 and 4): `fault` is set, the response is ERR_FAULT (code 11), the command
in progress stops, and nothing else changes, `S` among it. That the idle sequencer and the response show already when
the micro-operation is run by itself is the model's reading (log entry 12). -/
def Obligations.BoundsViolationEntersTheFaultState : Prop :=
  Response.errFault.code = 0b11 ∧
  ∀ (s : State) (sel : Sel) (base : Nat), s.fault = false → base + 4 > s.wlen →
    exec (.addRoundKey sel base) s = .next { s with fault := true, rsp := some .errFault, seq := .idle }

/-- A micro-operation presented to a faulted core performs nothing (60_exceptions.md section 4; the model's reading, log
entry 10). -/
def Obligations.UopInFaultedCorePerformsNothing : Prop :=
  ∀ (s : State) (u : Uop), s.fault = true → exec u.toInstr s = .next s

/-- The RESET event (70_reset_and_hazards.md section 1; 10_state.md section 10): from any state, also the fault state, `kv`
and `fault` are 0, the sequencer idles, no response is pending. That no key words are held is the model's reading (log
entry 16); the host's list and the pipeline's input are the model's fields (log entries 1 and 2). -/
def Obligations.ResetEventClearsTheFlags : Prop :=
  ∀ (s : State) (rest : List HostEvent), s.uopIn = [] → s.host = .reset :: rest →
    ∃ t, step s = .next t ∧ t.kv = false ∧ t.fault = false ∧ t.seq = .idle ∧ t.rsp = none ∧ t.K = [] ∧
      t.host = rest ∧ t.uopIn = []

/-- What reset leaves: the flags, the phase and that no response is pending are the spec's (10_state.md section 10); that `K`,
to which the spec gives no value, is the empty list is the model's reading (log entry 16). -/
def Obligations.ResetStateFlags : Prop :=
  State.reset.kv = false ∧ State.reset.fault = false ∧ State.reset.seq = .idle ∧ State.reset.rsp = none ∧
  State.reset.K = []

/-- With nothing to do the core keeps all its state; only the response of the last command is gone
(60_exceptions.md section 6; 70_reset_and_hazards.md section 3; that it is gone is the model's reading, log entry 3). -/
def Obligations.IdleStepKeepsTheState : Prop :=
  ∀ s : State, s.uopIn = [] → s.host = [] → step s = .next { s with rsp := none }

/-- Every instruction completes with a next state, and with the host driving every command word is answered at once by
exactly one response (30_encoding.md section 3; 70_reset_and_hazards.md section 3). -/
def Obligations.EveryCommandAnswers : Prop :=
  (∀ (i : Instr) (s : State), ∃ t, exec i s = .next t) ∧
  ∀ (s : State) (cmd : BitVec 3) (keyIn : BitVec 256) (blockIn : BitVec 128) (rest : List HostEvent),
    s.uopIn = [] → s.host = .command cmd keyIn blockIn :: rest →
    ∃ t r, step s = .next t ∧ t.rsp = some r ∧ t.host = rest

/-! ## Field arithmetic and tables -/

/-- R112: `xtime`, in both of its forms, and its corner cases. -/
def Obligations.XtimeRule : Prop :=
  (∀ b : Byte, xtime b = if b.getLsbD 7 then (b <<< 1) ^^^ 0x1B else b <<< 1) ∧
  (∀ b : Byte, xtime b = (b.extractLsb' 0 7 ++ (0 : BitVec 1)) ^^^ (if b.getLsbD 7 then 0x1B else 0x00)) ∧
  xtime 0x00 = 0x00 ∧ xtime 0x7f = 0xfe ∧ xtime 0x80 = 0x1b ∧ xtime 0xff = 0xe5 ∧ xtime 0x8d = 0x01 ∧
  xtime 0x57 = 0xae ∧ xtime 0xae = 0x47

/-- R114, R115: the multipliers by 03 and 09 are the printed identities, equal the field products, and take the values of
the rules' corner cases and examples. -/
def Obligations.MultipliersByThreeAndNine : Prop :=
  (∀ b : Byte, mul03 b = xtime b ^^^ b ∧ mul03 b = gfMul 0x03 b) ∧
  (∀ b : Byte, mul09 b = xtime (xtime (xtime b)) ^^^ b ∧ mul09 b = gfMul 0x09 b) ∧
  mul03 0x00 = 0x00 ∧ mul03 0x01 = 0x03 ∧ mul03 0x80 = 0x9b ∧ mul03 0xff = 0x1a ∧ mul03 0x57 = 0xf9 ∧
  mul09 0x00 = 0x00 ∧ mul09 0x01 = 0x09 ∧ mul09 0x80 = 0xec ∧ mul09 0xff = 0x46 ∧ mul09 0x57 = 0xd9

/-- The multipliers by 0B, 0D and 0E, whose identities the spec derives, equal the field products
(40_field_arithmetic.md section 2). -/
def Obligations.InverseMixMultipliersAreFieldProducts : Prop :=
  ∀ b : Byte, mul0B b = gfMul 0x0B b ∧ mul0D b = gfMul 0x0D b ∧ mul0E b = gfMul 0x0E b

/-- `gf_mul` is multiplication of polynomials over the two-element field, modulo `x^8 + x^4 + x^3 + x + 1`
(40_field_arithmetic.md section 1). -/
def Obligations.GfMulIsThePolynomialProduct : Prop :=
  let poly : Byte → Polynomial (ZMod 2) := fun b =>
    ∑ n ∈ Finset.range 8, if b.getLsbD n then Polynomial.X ^ n else 0
  let modulus : Polynomial (ZMod 2) :=
    Polynomial.X ^ 8 + Polynomial.X ^ 4 + Polynomial.X ^ 3 + Polynomial.X + 1
  ∀ k b : Byte, modulus ∣ poly k * poly b - poly (gfMul k b)

/-- Multiplication by a fixed nonzero constant is a bijection on bytes, linear over XOR, and keeps zero; the product is
commutative and associative (40_field_arithmetic.md sections 1 and 2). -/
def Obligations.FieldMultiplicationLaws : Prop :=
  (∀ k : Byte, k ≠ 0 → Function.Bijective (gfMul k)) ∧
  (∀ k a b : Byte, gfMul k (a ^^^ b) = gfMul k a ^^^ gfMul k b) ∧
  (∀ k : Byte, gfMul k 0 = 0) ∧ (∀ b : Byte, gfMul 1 b = b) ∧
  (∀ a b : Byte, gfMul a b = gfMul b a) ∧
  (∀ a b c : Byte, gfMul a (gfMul b c) = gfMul (gfMul a b) c)

/-- R119: `rot_word` moves the most significant byte to the least significant place. -/
def Obligations.RotWordRule : Prop :=
  (∀ w : Word, rotWord w = wordBe (b1 w) (b2 w) (b3 w) (b0 w)) ∧
  (∀ w : Word, rotWord w = w.extractLsb' 0 24 ++ w.extractLsb' 24 8) ∧
  (∀ w : Word, rotWord (rotWord (rotWord (rotWord w))) = w) ∧
  (∀ x : Byte, rotWord (wordBe x x x x) = wordBe x x x x) ∧
  rotWord 0x00000000 = 0x00000000 ∧ rotWord 0xff000000 = 0x000000ff ∧ rotWord 0x00000001 = 0x00000100 ∧
  rotWord 0x0c0d0e0f = 0x0d0e0f0c ∧ rotWord 0x09cf4f3c = 0xcf4f3c09

/-- `sub_word` substitutes each byte in its place and so commutes with `rot_word` (40_field_arithmetic.md section 3). -/
def Obligations.SubWordSubstitutesEachByte : Prop :=
  (∀ w : Word, b0 (subWord w) = sbox (b0 w) ∧ b1 (subWord w) = sbox (b1 w) ∧ b2 (subWord w) = sbox (b2 w) ∧
    b3 (subWord w) = sbox (b3 w)) ∧
  ∀ w : Word, subWord (rotWord w) = rotWord (subWord w)

/-- The two substitution tables undo each other, and the forward table is the affine image of the field inverse
(10_state.md section 7). -/
def Obligations.SubstitutionTables : Prop :=
  (∀ x : Byte, invSbox (sbox x) = x) ∧ (∀ y : Byte, sbox (invSbox y) = y) ∧ sbox 0x00 = 0x63 ∧
  ∀ a x : Byte, gfMul a x = 0x01 →
    sbox x = a ^^^ a.rotateLeft 1 ^^^ a.rotateLeft 2 ^^^ a.rotateLeft 3 ^^^ a.rotateLeft 4 ^^^ 0x63

/-- R31: the ten round constants, as the literal list and as `xtime` applied `j` times to 01 in the most significant
byte; the three low bytes are zero, and no expansion uses an index above 9. -/
def Obligations.RoundConstants : Prop :=
  (List.range 10).map rcon =
    [0x01000000, 0x02000000, 0x04000000, 0x08000000, 0x10000000, 0x20000000, 0x40000000, 0x80000000, 0x1B000000,
      0x36000000] ∧
  (∀ j < 10, rcon j = wordBe (xtime^[j] 0x01) 0 0 0) ∧
  ∀ (k : KeySize) (i : Nat), i < k.wlen → i % k.nk = 0 → i / k.nk - 1 < 10

/-- R165: the word count `WLEN = 4·(Nr+1) = 4·(Nk+7)`, 44, 52 or 60, and in every state of the invariant both schedules have
this length. -/
def Obligations.WordCount : Prop :=
  (∀ k : KeySize, k.nk = 4 + 2 * k.code.toNat ∧ k.nr = k.nk + 6 ∧ k.wlen = 4 * (k.nr + 1) ∧ k.wlen = 4 * (k.nk + 7)) ∧
  KeySize.k128.wlen = 44 ∧ KeySize.k192.wlen = 52 ∧ KeySize.k256.wlen = 60 ∧
  ∀ s : State, CoreInv s → s.W.length = s.wlen ∧ s.DW.length = s.wlen

/-- R166: the windowed read gives the four words the schedule holds from `base` on, of the schedule `sel` names, and is a
bounds violation exactly where `base + 4` exceeds `WLEN`; the last legal bases, and the rule's example. -/
def Obligations.KeyWindowRule : Prop :=
  (∀ (s : State) (base : Nat), Memory.wf s = true →
    (base + 4 > s.wlen → s.keyWindow .F base = none ∧ s.keyWindow .I base = none) ∧
    (base + 4 ≤ s.wlen → ∃ f i : Window,
      s.keyWindow .F base = some f ∧ s.W[base]? = some f.k0 ∧ s.W[base + 1]? = some f.k1 ∧
        s.W[base + 2]? = some f.k2 ∧ s.W[base + 3]? = some f.k3 ∧
      s.keyWindow .I base = some i ∧ s.DW[base]? = some i.k0 ∧ s.DW[base + 1]? = some i.k1 ∧
        s.DW[base + 2]? = some i.k2 ∧ s.DW[base + 3]? = some i.k3)) ∧
  (∀ k : KeySize, k.wlen - 4 = 4 * k.nr) ∧
  KeySize.k128.wlen - 4 = 40 ∧ KeySize.k192.wlen - 4 = 48 ∧ KeySize.k256.wlen - 4 = 56 ∧
  ∀ s : State, s.fault = false →
    ∃ t, exec (.keyload128 0x00010203 0x04050607 0x08090a0b 0x0c0d0e0f) s = .next t ∧
      t.keyWindow .F 4 = some ⟨0xd6aa74fd, 0xd2af72fa, 0xdaa678f1, 0xd6ab76fe⟩ ∧
      t.keyWindow .I 36 = some ⟨0x13aa29be, 0x9c8faff6, 0xf770f580, 0x00f7bf03⟩ ∧
      (t.keyWindow .F 40).isSome = true ∧ t.keyWindow .F 41 = none

/-! ## Micro-operations: each completes, writes `S` alone -/

/-- R130: SUB_BYTES replaces every byte of the state by its entry of `SBOX`, positions unmoved, and writes nothing else; the
rule's corner cases and example. -/
def Obligations.SubBytesEffect : Prop :=
  encode .subBytes = .uop 0x000 ∧
  (∀ s : State, s.fault = false → ∃ S', exec .subBytes s = .next { s with S := S' } ∧
    ∀ i : Fin 16, S'.flat i = sbox (s.S.flat i)) ∧
  (AesState.ofBus 0).subBytes = AesState.ofBus 0x63636363636363636363636363636363 ∧
  (AesState.ofBus 0xffffffffffffffffffffffffffffffff).subBytes = AesState.ofBus 0x16161616161616161616161616161616 ∧
  (AesState.ofBus 0x00102030405060708090a0b0c0d0e0f0).subBytes = AesState.ofBus 0x63cab7040953d051cd60e0e7ba70e18c

/-- R131: INV_SUB_BYTES replaces every byte of the state by its entry of `INV_SBOX` and writes nothing else; it undoes
SUB_BYTES and is undone by it; the rule's corner cases and examples. -/
def Obligations.InvSubBytesEffect : Prop :=
  encode .invSubBytes = .uop 0x080 ∧
  (∀ s : State, s.fault = false → ∃ S', exec .invSubBytes s = .next { s with S := S' } ∧
    ∀ i : Fin 16, S'.flat i = invSbox (s.S.flat i)) ∧
  (AesState.ofBus 0).invSubBytes = AesState.ofBus 0x52525252525252525252525252525252 ∧ invSbox 0x63 = 0x00 ∧
  (∀ S : AesState, S.subBytes.invSubBytes = S ∧ S.invSubBytes.subBytes = S) ∧
  (AesState.ofBus 0x63cab7040953d051cd60e0e7ba70e18c).invSubBytes = AesState.ofBus 0x00102030405060708090a0b0c0d0e0f0 ∧
  (AesState.ofBus 0x000102030405060708090a0b0c0d0e0f).invSubBytes = AesState.ofBus 0x52096ad53036a538bf40a39e81f3d7fb

/-- R132: SHIFT_ROWS brings the byte of column `c + r` (mod 4) of row `r` to column `c`, by row and column and written out by
flat index, and writes nothing else; the rule's corner cases and examples. -/
def Obligations.ShiftRowsEffect : Prop :=
  encode .shiftRows = .uop 0x100 ∧
  (∀ s : State, s.fault = false → ∃ S', exec .shiftRows s = .next { s with S := S' } ∧
    (∀ r c d : Fin 4, d.val = (c.val + r.val) % 4 → S'.at r c = s.S.at r d) ∧
    (List.finRange 16).map S'.flat = [0, 5, 10, 15, 4, 9, 14, 3, 8, 13, 2, 7, 12, 1, 6, 11].map s.S.flat) ∧
  (∀ S : AesState, (∀ c : Fin 4, S.shiftRows.at 0 c = S.at 0 c) ∧
    (∀ c : Fin 4, S.shiftRows.shiftRows.at 2 c = S.at 2 c) ∧
    S.shiftRows.shiftRows.shiftRows.shiftRows = S) ∧
  (∀ c : Column, AesState.shiftRows ⟨c, c, c, c⟩ = ⟨c, c, c, c⟩) ∧
  (AesState.ofBus 0x000102030405060708090a0b0c0d0e0f).shiftRows = AesState.ofBus 0x00050a0f04090e03080d02070c01060b ∧
  (AesState.ofBus 0x63cab7040953d051cd60e0e7ba70e18c).shiftRows = AesState.ofBus 0x6353e08c0960e104cd70b751bacad0e7

/-- R133: INV_SHIFT_ROWS shifts row `r` right by `r`, by row and column and written out by flat index, undoes SHIFT_ROWS, and
writes nothing else; the rule's corner cases and examples. -/
def Obligations.InvShiftRowsEffect : Prop :=
  encode .invShiftRows = .uop 0x180 ∧
  (∀ s : State, s.fault = false → ∃ S', exec .invShiftRows s = .next { s with S := S' } ∧
    (∀ r c d : Fin 4, d.val = (c.val + 4 - r.val) % 4 → S'.at r c = s.S.at r d) ∧
    (List.finRange 16).map S'.flat = [0, 13, 10, 7, 4, 1, 14, 11, 8, 5, 2, 15, 12, 9, 6, 3].map s.S.flat) ∧
  (∀ S : AesState, (∀ c : Fin 4, S.invShiftRows.at 0 c = S.at 0 c) ∧
    (∀ c : Fin 4, S.invShiftRows.at 2 c = S.shiftRows.at 2 c) ∧ S.shiftRows.invShiftRows = S) ∧
  (AesState.ofBus 0x000102030405060708090a0b0c0d0e0f).invShiftRows =
    AesState.ofBus 0x000d0a0704010e0b0805020f0c090603 ∧
  (AesState.ofBus 0x00050a0f04090e03080d02070c01060b).invShiftRows =
    AesState.ofBus 0x000102030405060708090a0b0c0d0e0f

/-- R134: MIX_COLUMNS replaces each column by its product with the circulant (02, 03, 01, 01) and writes nothing else; it is
linear over XOR; the rule's corner cases and examples. -/
def Obligations.MixColumnsEffect : Prop :=
  encode .mixColumns = .uop 0x200 ∧
  (∀ s : State, s.fault = false → ∃ S', exec .mixColumns s = .next { s with S := S' } ∧ ∀ c : Fin 4,
    S'.at 0 c = gfMul 2 (s.S.at 0 c) ^^^ gfMul 3 (s.S.at 1 c) ^^^ s.S.at 2 c ^^^ s.S.at 3 c ∧
    S'.at 1 c = s.S.at 0 c ^^^ gfMul 2 (s.S.at 1 c) ^^^ gfMul 3 (s.S.at 2 c) ^^^ s.S.at 3 c ∧
    S'.at 2 c = s.S.at 0 c ^^^ s.S.at 1 c ^^^ gfMul 2 (s.S.at 2 c) ^^^ gfMul 3 (s.S.at 3 c) ∧
    S'.at 3 c = gfMul 3 (s.S.at 0 c) ^^^ s.S.at 1 c ^^^ s.S.at 2 c ^^^ gfMul 2 (s.S.at 3 c)) ∧
  (∀ x : Byte, mixCol ⟨x, x, x, x⟩ = ⟨x, x, x, x⟩) ∧
  (∀ a b : Column, mixCol (a.xor b) = (mixCol a).xor (mixCol b)) ∧
  mixCol ⟨1, 0, 0, 0⟩ = ⟨2, 1, 1, 3⟩ ∧ mixCol ⟨0, 1, 0, 0⟩ = ⟨3, 2, 1, 1⟩ ∧
  mixCol ⟨0, 0, 1, 0⟩ = ⟨1, 3, 2, 1⟩ ∧ mixCol ⟨0, 0, 0, 1⟩ = ⟨1, 1, 3, 2⟩ ∧
  mixCol ⟨0xdb, 0x13, 0x53, 0x45⟩ = ⟨0x8e, 0x4d, 0xa1, 0xbc⟩ ∧
  mixCol ⟨0xf2, 0x0a, 0x22, 0x5c⟩ = ⟨0x9f, 0xdc, 0x58, 0x9d⟩ ∧
  mixCol ⟨0xd4, 0xd4, 0xd4, 0xd5⟩ = ⟨0xd5, 0xd5, 0xd7, 0xd6⟩ ∧
  mixCol ⟨0x2d, 0x26, 0x31, 0x4c⟩ = ⟨0x4d, 0x7e, 0xbd, 0xf8⟩ ∧
  (AesState.ofBus 0x6353e08c0960e104cd70b751bacad0e7).mixColumns = AesState.ofBus 0x5f72641557f5bc92f7be3b291db9f91a

/-- INV_MIX_COLUMNS: each column by the circulant (0E, 0B, 0D, 09), the arrangement 90_conflicts.md C5 chooses
(41_state_transform.md section 3). -/
def Obligations.InvMixColumnsEffect : Prop :=
  encode .invMixColumns = .uop 0x280 ∧
  ∀ s : State, s.fault = false → ∃ S', exec .invMixColumns s = .next { s with S := S' } ∧ ∀ c : Fin 4,
    S'.at 0 c = gfMul 0x0E (s.S.at 0 c) ^^^ gfMul 0x0B (s.S.at 1 c) ^^^ gfMul 0x0D (s.S.at 2 c) ^^^ gfMul 0x09 (s.S.at 3 c) ∧
    S'.at 1 c = gfMul 0x09 (s.S.at 0 c) ^^^ gfMul 0x0E (s.S.at 1 c) ^^^ gfMul 0x0B (s.S.at 2 c) ^^^ gfMul 0x0D (s.S.at 3 c) ∧
    S'.at 2 c = gfMul 0x0D (s.S.at 0 c) ^^^ gfMul 0x09 (s.S.at 1 c) ^^^ gfMul 0x0E (s.S.at 2 c) ^^^ gfMul 0x0B (s.S.at 3 c) ∧
    S'.at 3 c = gfMul 0x0B (s.S.at 0 c) ^^^ gfMul 0x0D (s.S.at 1 c) ^^^ gfMul 0x09 (s.S.at 2 c) ^^^ gfMul 0x0E (s.S.at 3 c)

/-- R136: ADD_ROUND_KEY XORs word `c` of the window into column `c`, most significant byte into row 0; out of bounds it
raises the bounds violation and does not write `S`. -/
def Obligations.AddRoundKeyEffect : Prop :=
  (∀ base < 64, encode (.addRoundKey .F base) = .uop (0x300 + BitVec.ofNat 10 base) ∧
    encode (.addRoundKey .I base) = .uop (0x340 + BitVec.ofNat 10 base)) ∧
  (∀ (s : State) (sel : Sel) (base : Nat), s.fault = false →
    (base + 4 ≤ s.wlen → ∃ S', exec (.addRoundKey sel base) s = .next { s with S := S' } ∧ ∀ c : Fin 4,
      S'.at 0 c = s.S.at 0 c ^^^ b0 (scheduleWord (s.schedule sel) (base + c.val)) ∧
      S'.at 1 c = s.S.at 1 c ^^^ b1 (scheduleWord (s.schedule sel) (base + c.val)) ∧
      S'.at 2 c = s.S.at 2 c ^^^ b2 (scheduleWord (s.schedule sel) (base + c.val)) ∧
      S'.at 3 c = s.S.at 3 c ^^^ b3 (scheduleWord (s.schedule sel) (base + c.val))) ∧
    (base + 4 > s.wlen → ∃ t, exec (.addRoundKey sel base) s = .next t ∧ t.fault = true ∧ t.S = s.S)) ∧
  (∀ (S : AesState) (k : Window), (S.addRoundKey k).addRoundKey k = S) ∧
  (∀ S : AesState, S.addRoundKey ⟨0, 0, 0, 0⟩ = S) ∧
  (∀ k : Window, ((AesState.ofBus 0).addRoundKey k).toBus = k.k0 ++ k.k1 ++ k.k2 ++ k.k3) ∧
  (AesState.ofBus 0x00112233445566778899aabbccddeeff).addRoundKey ⟨0x00010203, 0x04050607, 0x08090a0b, 0x0c0d0e0f⟩ =
    AesState.ofBus 0x00102030405060708090a0b0c0d0e0f0 ∧
  (AesState.ofBus 0x5f72641557f5bc92f7be3b291db9f91a).addRoundKey ⟨0xd6aa74fd, 0xd2af72fa, 0xdaa678f1, 0xd6ab76fe⟩ =
    AesState.ofBus 0x89d810e8855ace682d1843d8cb128fe4

/-! ## Laws of the transforms -/

/-- R138: each inverse micro-operation undoes its forward one, in both orders, and adding the same round key twice
restores the state. -/
def Obligations.InverseLaws : Prop :=
  (∀ S : AesState, S.subBytes.invSubBytes = S ∧ S.invSubBytes.subBytes = S) ∧
  (∀ S : AesState, S.shiftRows.invShiftRows = S ∧ S.invShiftRows.shiftRows = S) ∧
  (∀ S : AesState, S.mixColumns.invMixColumns = S ∧ S.invMixColumns.mixColumns = S) ∧
  (∀ (S : AesState) (k : Window), (S.addRoundKey k).addRoundKey k = S)

/-- Identities the spec derives: SUB_BYTES commutes with SHIFT_ROWS, and ADD_ROUND_KEY is one XOR of the 128-bit readings of
state and window (41_state_transform.md sections 1 and 4). -/
def Obligations.SubstitutionCommutesAndKeyAdditionIsOneXor : Prop :=
  (∀ S : AesState, S.subBytes.shiftRows = S.shiftRows.subBytes) ∧
  (∀ (S : AesState) (k : Window), (S.addRoundKey k).toBus = S.toBus ^^^ (k.k0 ++ k.k1 ++ k.k2 ++ k.k3))

/-- Adding transformed words after the inverse column mix is the inverse column mix after adding the words themselves:
why the inverse schedule makes the equivalent inverse cipher (41_state_transform.md section 5). -/
def Obligations.InverseMixMovesThroughRoundKey : Prop :=
  ∀ (S : AesState) (k : Window),
    S.invMixColumns.addRoundKey ⟨invMixWord k.k0, invMixWord k.k1, invMixWord k.k2, invMixWord k.k3⟩ =
      (S.addRoundKey k).invMixColumns

/-! ## Key loads -/

/-- KEYLOAD128 takes its key from the upper half of the key bus, writes `ksize`, both schedules and `kv`, and answers
OK (43_orchestrator.md section 2); nothing else changes, but that `K` is left the empty list, which is the model's reading of
the key input not being retained (10_state.md section 2; log entry 16). With the spec's example. -/
def Obligations.Keyload128Effect : Prop :=
  (∀ (keyIn : BitVec 256) (blockIn : BitVec 128), decodeCommand 0b000 keyIn blockIn = .ok (.keyload128
    (keyIn.extractLsb' 224 32) (keyIn.extractLsb' 192 32) (keyIn.extractLsb' 160 32) (keyIn.extractLsb' 128 32))) ∧
  (∀ (s : State) (k0 k1 k2 k3 : Word), s.fault = false →
    ∃ W DW, IsForwardSchedule .k128 [k0, k1, k2, k3] W ∧ IsInverseSchedule W DW ∧
      exec (.keyload128 k0 k1 k2 k3) s = .next { s with
        ksize := .k128, W := W, DW := DW, kv := true, K := [], seq := .idle, rsp := some .ok }) ∧
  ∀ s : State, s.fault = false →
    ∃ t, exec (.keyload128 0x00010203 0x04050607 0x08090a0b 0x0c0d0e0f) s = .next t ∧
      (t.W.drop 4).take 4 = [0xd6aa74fd, 0xd2af72fa, 0xdaa678f1, 0xd6ab76fe] ∧
      t.W.drop 40 = [0x13111d7f, 0xe3944a17, 0xf307a78b, 0x4d2b30c5] ∧
      t.DW.drop 40 = [0x62e7ac49, 0xfe6803bf, 0x0918f63f, 0x09ef493c] ∧ t.kv = true ∧ t.rsp = some .ok

/-- KEYLOAD192, as KEYLOAD128 with six key words (43_orchestrator.md section 2); `K := []` is the model's reading (log
entry 16). -/
def Obligations.Keyload192Effect : Prop :=
  (∀ (keyIn : BitVec 256) (blockIn : BitVec 128), decodeCommand 0b001 keyIn blockIn = .ok (.keyload192
    (keyIn.extractLsb' 224 32) (keyIn.extractLsb' 192 32) (keyIn.extractLsb' 160 32) (keyIn.extractLsb' 128 32)
    (keyIn.extractLsb' 96 32) (keyIn.extractLsb' 64 32))) ∧
  (∀ (s : State) (k0 k1 k2 k3 k4 k5 : Word), s.fault = false →
    ∃ W DW, IsForwardSchedule .k192 [k0, k1, k2, k3, k4, k5] W ∧ IsInverseSchedule W DW ∧
      exec (.keyload192 k0 k1 k2 k3 k4 k5) s = .next { s with
        ksize := .k192, W := W, DW := DW, kv := true, K := [], seq := .idle, rsp := some .ok }) ∧
  ∀ s : State, s.fault = false →
    ∃ t, exec (.keyload192 0x00010203 0x04050607 0x08090a0b 0x0c0d0e0f 0x10111213 0x14151617) s = .next t ∧
      (t.W.drop 6).take 4 = [0x5846f2f9, 0x5c43f4fe, 0x544afef5, 0x5847f0fa] ∧
      t.W.drop 48 = [0xa4970a33, 0x1a78dc09, 0xc418c271, 0xe3a41d5d] ∧ t.kv = true ∧ t.rsp = some .ok

/-- KEYLOAD256, as KEYLOAD128 with eight key words (43_orchestrator.md section 2); `K := []` is the model's reading (log
entry 16). -/
def Obligations.Keyload256Effect : Prop :=
  (∀ (keyIn : BitVec 256) (blockIn : BitVec 128), decodeCommand 0b010 keyIn blockIn = .ok (.keyload256
    (keyIn.extractLsb' 224 32) (keyIn.extractLsb' 192 32) (keyIn.extractLsb' 160 32) (keyIn.extractLsb' 128 32)
    (keyIn.extractLsb' 96 32) (keyIn.extractLsb' 64 32) (keyIn.extractLsb' 32 32) (keyIn.extractLsb' 0 32))) ∧
  (∀ (s : State) (k0 k1 k2 k3 k4 k5 k6 k7 : Word), s.fault = false →
    ∃ W DW, IsForwardSchedule .k256 [k0, k1, k2, k3, k4, k5, k6, k7] W ∧ IsInverseSchedule W DW ∧
      exec (.keyload256 k0 k1 k2 k3 k4 k5 k6 k7) s = .next { s with
        ksize := .k256, W := W, DW := DW, kv := true, K := [], seq := .idle, rsp := some .ok }) ∧
  ∀ s : State, s.fault = false →
    ∃ t, exec (.keyload256 0x00010203 0x04050607 0x08090a0b 0x0c0d0e0f 0x10111213 0x14151617
        0x18191a1b 0x1c1d1e1f) s = .next t ∧
      (t.W.drop 8).take 5 = [0xa573c29f, 0xa176c498, 0xa97fce93, 0xa572c09c, 0x1651a8cd] ∧
      t.W.drop 56 = [0x24fc79cc, 0xbf0979e9, 0x371ac23c, 0x6d68de36] ∧ t.kv = true ∧ t.rsp = some .ok

/-- The expansion equations have one solution for each key: they fix every word of the schedule
(42_key_schedule.md section 1). -/
def Obligations.ScheduleIsDeterminedByTheKey : Prop :=
  ∀ (k : KeySize) (key W W' : List Word), key.length = k.nk →
    IsForwardSchedule k key W → IsForwardSchedule k key W' → W = W'

/-- A key load uses nothing of the key before it: from any two states it leaves the same key size and schedules
(20_memory.md section 7; 43_orchestrator.md section 2). -/
def Obligations.KeyloadForgetsTheOldKey : Prop :=
  ∀ (i : Instr) (s t : State), isKeyload i = true → s.fault = false → t.fault = false →
    ∃ s' t', exec i s = .next s' ∧ exec i t = .next t' ∧
      s'.ksize = t'.ksize ∧ s'.W = t'.W ∧ s'.DW = t'.DW ∧ s'.kv = true ∧ t'.kv = true ∧ s'.rsp = t'.rsp

/-- The sequencer's counters (10_state.md section 3). During key expansion the word index stands at `Nk + n` after `n` words,
from `Nk` to `WLEN − 1`, and during the inverse derivation at `n`, from 0 to `WLEN − 1`: in neither phase does it ever
stand below its start or above `WLEN − 1`, which is at most 59. A block command's micro-operation is issued at its round
number in the program, never above 14, and the round numbers run 0 to `Nr` for CIPHER and `Nr` to 0 for DECIPHER. That
the last word of a loop ends its phase at once, for INVKEYEXP and for IDLE, is the model's choice (log entry 24). -/
def Obligations.SequencerCounters : Prop :=
  (∀ (s : State) (n : Nat),
    (s.ksize.nk + n < s.wlen →
      (keyexpStep^[n] (s.seedForward.setSeq (.keyexp s.ksize.nk))).seq = .keyexp (s.ksize.nk + n)) ∧
    (s.ksize.nk + n ≥ s.wlen →
      (keyexpStep^[n] (s.seedForward.setSeq (.keyexp s.ksize.nk))).seq = .invkeyexp 0) ∧
    ∀ i, (keyexpStep^[n] (s.seedForward.setSeq (.keyexp s.ksize.nk))).seq = .keyexp i →
      s.ksize.nk ≤ i ∧ i ≤ s.wlen - 1 ∧ i ≤ 59) ∧
  (∀ (s : State) (n : Nat),
    (n < s.wlen → (invkeyexpStep^[n] (s.clearInverse.setSeq (.invkeyexp 0))).seq = .invkeyexp n) ∧
    (n ≥ s.wlen → (invkeyexpStep^[n] (s.clearInverse.setSeq (.invkeyexp 0))).seq = .idle) ∧
    ∀ i, (invkeyexpStep^[n] (s.clearInverse.setSeq (.invkeyexp 0))).seq = .invkeyexp i →
      i ≤ s.wlen - 1 ∧ i ≤ 59) ∧
  (∀ (s : State) (r : Nat) (u : Uop), s.fault = false →
    ((r, u) ∈ cipherProgram s.nr → (State.issue .enc s (r, u)).seq = .enc r ∧ r ≤ s.nr ∧ r ≤ 14) ∧
    ((r, u) ∈ decipherProgram s.nr → (State.issue .dec s (r, u)).seq = .dec r ∧ r ≤ s.nr ∧ r ≤ 14)) ∧
  ∀ k : KeySize,
    ((cipherProgram k.nr).map (·.1)).dedup = List.range (k.nr + 1) ∧
    ((decipherProgram k.nr).map (·.1)).dedup = (List.range (k.nr + 1)).reverse

/-! ## Block commands -/

/-- CIPHER answers the composition of its rounds over the forward schedule and writes no retained state (43_orchestrator.md
section 3). `S` is not retained (10_state.md section 2): that it becomes the free value of the counter `draws`, which
advances, is the model's choice (log entry 7), and the statement holds whatever that value is. With the spec's example. -/
def Obligations.CipherEffect : Prop :=
  (∀ (keyIn : BitVec 256) (blockIn : BitVec 128),
    decodeCommand 0b100 keyIn blockIn = .ok (.cipher (AesState.ofBus blockIn))) ∧
  (∀ (s : State) (block : AesState), s.fault = false → s.kv = true →
    exec (.cipher block) s = .next { s with
      rsp := some (.okBlock (cipherBlock s.W s.nr block).toBus), seq := .idle
      S := Config.freeState s.draws, draws := s.draws + 1 }) ∧
  ∀ s : State, s.fault = false →
    ∃ t u, exec (.keyload128 0x00010203 0x04050607 0x08090a0b 0x0c0d0e0f) s = .next t ∧
      exec (.cipher (AesState.ofBus 0x00112233445566778899aabbccddeeff)) t = .next u ∧
      u.rsp = some (.okBlock 0x69c4e0d86a7b0430d8cdb78070b4c55a)

/-- DECIPHER answers the composition of its rounds, forward-schedule words first and last and inverse-schedule words
between, and writes no retained state (43_orchestrator.md section 3). That `S` becomes the free value of the counter
`draws`, which advances, is the model's choice (log entry 7), and the statement holds whatever that value is. With the
spec's example. -/
def Obligations.DecipherEffect : Prop :=
  (∀ (keyIn : BitVec 256) (blockIn : BitVec 128),
    decodeCommand 0b101 keyIn blockIn = .ok (.decipher (AesState.ofBus blockIn))) ∧
  (∀ (s : State) (block : AesState), s.fault = false → s.kv = true →
    exec (.decipher block) s = .next { s with
      rsp := some (.okBlock (decipherBlock s.W s.DW s.nr block).toBus), seq := .idle
      S := Config.freeState s.draws, draws := s.draws + 1 }) ∧
  ∀ s : State, s.fault = false →
    ∃ t u, exec (.keyload128 0x00010203 0x04050607 0x08090a0b 0x0c0d0e0f) s = .next t ∧
      exec (.decipher (AesState.ofBus 0x69c4e0d86a7b0430d8cdb78070b4c55a)) t = .next u ∧
      u.rsp = some (.okBlock 0x00112233445566778899aabbccddeeff)

/-- A block command is its micro-operation program: running the program's micro-operations through `exec` one after the
other, on the loaded block, ends in the state whose `S` the command answers (30_encoding.md section 1;
41_state_transform.md section 7). -/
def Obligations.BlockCommandIsItsUopProgram : Prop :=
  ∀ (s : State) (block : AesState), s.fault = false → s.kv = true →
    (∃ t u, runInstrs ((cipherProgram s.nr).map (·.2.toInstr)) { s with S := block } = .next t ∧
      exec (.cipher block) s = .next u ∧ u.rsp = some (.okBlock t.S.toBus) ∧ t = { s with S := t.S }) ∧
    (∃ t u, runInstrs ((decipherProgram s.nr).map (·.2.toInstr)) { s with S := block } = .next t ∧
      exec (.decipher block) s = .next u ∧ u.rsp = some (.okBlock t.S.toBus) ∧ t = { s with S := t.S })

/-- The two programs as micro-operation words, `4·Nr` of them (43_orchestrator.md section 4). -/
def Obligations.UopProgramsAsWords : Prop :=
  ∀ k : KeySize,
    (cipherProgram k.nr).map (·.2.word) =
      [0x300] ++ (List.range' 1 (k.nr - 1)).flatMap (fun r => [0x000, 0x100, 0x200, 0x300 + BitVec.ofNat 10 (4 * r)]) ++
        [0x000, 0x100, 0x300 + BitVec.ofNat 10 (4 * k.nr)] ∧
    (decipherProgram k.nr).map (·.2.word) =
      [0x300 + BitVec.ofNat 10 (4 * k.nr)] ++
        (List.range' 1 (k.nr - 1)).reverse.flatMap
          (fun r => [0x080, 0x180, 0x280, 0x340 + BitVec.ofNat 10 (4 * r)]) ++ [0x080, 0x180, 0x300] ∧
    (cipherProgram k.nr).length = 4 * k.nr ∧ (decipherProgram k.nr).length = 4 * k.nr

/-- Every window the programs ask for starts at a multiple of 4 and ends within the schedule; the inverse schedule is read
only in the middle rounds of DECIPHER (42_key_schedule.md section 3; 30_encoding.md section 4). -/
def Obligations.ProgramWindowsAreAlignedAndInBounds : Prop :=
  ∀ (k : KeySize) (r base : Nat) (sel : Sel),
    ((r, Uop.addRoundKey sel base) ∈ cipherProgram k.nr →
      base % 4 = 0 ∧ base + 4 ≤ k.wlen ∧ sel = .F) ∧
    ((r, Uop.addRoundKey sel base) ∈ decipherProgram k.nr →
      base % 4 = 0 ∧ base + 4 ≤ k.wlen ∧ (sel = .I ↔ 1 ≤ r ∧ r ≤ k.nr - 1))

/-- R186: with a valid key, no fault and no key load in between, DECIPHER of what CIPHER answered answers the block, and
CIPHER of what DECIPHER answered answers the block. `t` is any later state with the same key. -/
def Obligations.RoundTrip : Prop :=
  ∀ (s t : State) (block : AesState), CoreInv s → s.kv = true → s.fault = false →
    t.kv = true → t.fault = false → t.ksize = s.ksize → t.W = s.W → t.DW = s.DW →
    (∃ (s' : State) (c : BitVec 128), exec (.cipher block) s = .next s' ∧ s'.rsp = some (.okBlock c) ∧
      ∃ t', exec (.decipher (AesState.ofBus c)) t = .next t' ∧ t'.rsp = some (.okBlock block.toBus)) ∧
    (∃ (s' : State) (p : BitVec 128), exec (.decipher block) s = .next s' ∧ s'.rsp = some (.okBlock p) ∧
      ∃ t', exec (.cipher (AesState.ofBus p)) t = .next t' ∧ t'.rsp = some (.okBlock block.toBus))

/-- R192: the response to a block command is a function of `(Nk, W, DW, block)` only. -/
def Obligations.BlocksAreIndependent : Prop :=
  ∀ (s t : State) (block : AesState), s.kv = true → t.kv = true → s.fault = false → t.fault = false →
    s.ksize = t.ksize → s.W = t.W → s.DW = t.DW →
    (∃ s' t', exec (.cipher block) s = .next s' ∧ exec (.cipher block) t = .next t' ∧ s'.rsp = t'.rsp) ∧
    (∃ s' t', exec (.decipher block) s = .next s' ∧ exec (.decipher block) t = .next t' ∧ s'.rsp = t'.rsp)

/-- Which schedule words a block command reads (43_orchestrator.md section 3; 10_state.md section 9): CIPHER the forward
words alone; DECIPHER the forward words of rounds 0 and `Nr` and the inverse words between, so the inverse words of
rounds 0 and `Nr` reach no response. -/
def Obligations.DeadScheduleWords : Prop :=
  ∀ (s t : State) (block : AesState), s.kv = true → t.kv = true → s.fault = false → t.fault = false →
    s.ksize = t.ksize →
    ((∀ i < s.wlen, scheduleWord s.W i = scheduleWord t.W i) →
      ∃ s' t', exec (.cipher block) s = .next s' ∧ exec (.cipher block) t = .next t' ∧ s'.rsp = t'.rsp) ∧
    ((∀ i < s.wlen, i < 4 ∨ 4 * s.nr ≤ i → scheduleWord s.W i = scheduleWord t.W i) →
      (∀ i < s.wlen, 4 ≤ i → i < 4 * s.nr → scheduleWord s.DW i = scheduleWord t.DW i) →
      ∃ s' t', exec (.decipher block) s = .next s' ∧ exec (.decipher block) t = .next t' ∧ s'.rsp = t'.rsp)

/-! ## Whole-machine rules -/

/-- The retained state is written by nothing but a key load (10_state.md section 1; 43_orchestrator.md section 4): any other
instruction keeps `kv`, `ksize`, `W`, `DW`; no instruction clears `fault`, and only an ADD_ROUND_KEY out of bounds
sets it; none touches the host's events or the words presented to the pipeline. -/
def Obligations.OnlyKeyloadsWriteTheRetainedState : Prop :=
  ∀ (i : Instr) (s : State), ∃ t, exec i s = .next t ∧
    (isKeyload i = false → t.kv = s.kv ∧ t.ksize = s.ksize ∧ t.W = s.W ∧ t.DW = s.DW ∧ t.K = s.K) ∧
    (t.fault = s.fault ∨
      s.fault = false ∧ t.fault = true ∧ ∃ sel base, i = .addRoundKey sel base ∧ base + 4 > s.wlen) ∧
    t.host = s.host ∧ t.uopIn = s.uopIn

/-- Every step keeps the invariant of the retained state: whole schedules of the right length, an idle sequencer, no key
input held (log entry 16), and with a valid key the schedules of that key (10_state.md sections 2 to 6;
70_reset_and_hazards.md section 3). -/
def Obligations.StepKeepsCoreInv : Prop :=
  ∀ s t : State, CoreInv s → step s = .next t → CoreInv t

/-- The state after reset meets the invariant and is driven by the host alone. The spec gives the flags and the idle
sequencer (10_state.md section 10) but leaves `ksize`, `W`, `DW` unspecified: the invariant's memory clause, that both
schedules have the word count of `ksize`, holds there by the model's choices (log entries 4 and 5), its clause on `K` by log
entry 16, and that nothing waits in `uopIn` by log entry 1. -/
def Obligations.ResetMeetsTheInvariants : Prop :=
  CoreInv State.reset ∧ HostDriven State.reset

/-- The fault state is unreachable from the commands (60_exceptions.md section 1; 42_key_schedule.md section 3): while the host
alone drives the core every step is a next state, `fault` stays 0, and no word is left at the pipeline's input. -/
def Obligations.StepKeepsTheCoreFaultFree : Prop :=
  ∀ s : State, HostDriven s → ∃ t, step s = .next t ∧ HostDriven t

/-- Nothing unspecified is ever seen (10_state.md section 10): two cores that differ at most in `ksize`, `W`, `DW` while no key is
valid and in the state register between commands, given the same host events, stay so, response for response. -/
def Obligations.UnspecifiedStateIsNeverSeen : Prop :=
  ∀ s t : State, SameToHost s t → ∃ s' t', step s = .next s' ∧ step t = .next t' ∧ SameToHost s' t'
end

