-- ==== Sys2Proof/Laws/Bytes.lean ====
section
/-!
SUPPORT. The small lemmas of the byte, word, column and state-matrix conversions, and of the field's linearity.
-/
namespace Sys2Proof

/-! ## Bytes of a word -/

@[simp] theorem b0_wordBe (x0 x1 x2 x3 : Byte) : b0 (wordBe x0 x1 x2 x3) = x0 := by
  ext i hi
  simp [b0, wordBe]
  grind

@[simp] theorem b1_wordBe (x0 x1 x2 x3 : Byte) : b1 (wordBe x0 x1 x2 x3) = x1 := by
  ext i hi
  simp [b1, wordBe]
  grind

@[simp] theorem b2_wordBe (x0 x1 x2 x3 : Byte) : b2 (wordBe x0 x1 x2 x3) = x2 := by
  ext i hi
  simp [b2, wordBe]
  grind

@[simp] theorem b3_wordBe (x0 x1 x2 x3 : Byte) : b3 (wordBe x0 x1 x2 x3) = x3 := by
  ext i hi
  simp [b3, wordBe]
  grind

@[simp] theorem wordBe_bytes (w : Word) : wordBe (b0 w) (b1 w) (b2 w) (b3 w) = w := by
  ext i hi
  simp [b0, b1, b2, b3, wordBe]
  grind

@[simp] theorem Column.ofWord_toWord (c : Column) : Column.ofWord c.toWord = c := by
  simp [Column.ofWord, Column.toWord]

@[simp] theorem Column.toWord_ofWord (w : Word) : (Column.ofWord w).toWord = w := by
  simp [Column.ofWord, Column.toWord]

/-! ## The state matrix -/

@[simp] theorem AesState.at_ofFn (f : Fin 4 → Fin 4 → Byte) (r c : Fin 4) : (AesState.ofFn f).at r c = f r c := by
  match r, c with
  | 0, 0 | 0, 1 | 0, 2 | 0, 3 | 1, 0 | 1, 1 | 1, 2 | 1, 3
  | 2, 0 | 2, 1 | 2, 2 | 2, 3 | 3, 0 | 3, 1 | 3, 2 | 3, 3 => rfl

/-- A state is its sixteen bytes. -/
theorem AesState.ext_at {S T : AesState} (h : ∀ r c, S.at r c = T.at r c) : S = T := by
  obtain ⟨⟨_, _, _, _⟩, ⟨_, _, _, _⟩, ⟨_, _, _, _⟩, ⟨_, _, _, _⟩⟩ := S
  obtain ⟨⟨_, _, _, _⟩, ⟨_, _, _, _⟩, ⟨_, _, _, _⟩, ⟨_, _, _, _⟩⟩ := T
  simp only [AesState.mk.injEq, Column.mk.injEq]
  exact ⟨⟨h 0 0, h 1 0, h 2 0, h 3 0⟩, ⟨h 0 1, h 1 1, h 2 1, h 3 1⟩, ⟨h 0 2, h 1 2, h 2 2, h 3 2⟩,
    ⟨h 0 3, h 1 3, h 2 3, h 3 3⟩⟩

@[simp] theorem AesState.ofFn_at (S : AesState) : AesState.ofFn S.at = S := AesState.ext_at fun r c => by simp

@[simp] theorem AesState.col_mapCols (g : Column → Column) (S : AesState) (c : Fin 4) :
    (S.mapCols g).col c = g (S.col c) := by
  match c with
  | 0 | 1 | 2 | 3 => rfl

/-! ## XOR of columns -/

@[simp] theorem Column.xor_xor_cancel_right (a b : Column) : (a.xor b).xor b = a := by
  simp [Column.xor]

/-! ## Linearity over XOR (R111) -/

theorem xtime_xor (a b : Byte) : xtime (a ^^^ b) = xtime a ^^^ xtime b := by
  unfold xtime
  rw [BitVec.msb_xor, BitVec.shiftLeft_xor_distrib]
  cases a.msb <;> cases b.msb <;> (simp; try ac_nf; try simp)

theorem mul03_xor (a b : Byte) : mul03 (a ^^^ b) = mul03 a ^^^ mul03 b := by
  simp only [mul03, xtime_xor]
  ac_rfl

theorem mul09_xor (a b : Byte) : mul09 (a ^^^ b) = mul09 a ^^^ mul09 b := by
  simp only [mul09, xtime_xor]
  ac_rfl

theorem mul0B_xor (a b : Byte) : mul0B (a ^^^ b) = mul0B a ^^^ mul0B b := by
  simp only [mul0B, xtime_xor]
  ac_rfl

theorem mul0D_xor (a b : Byte) : mul0D (a ^^^ b) = mul0D a ^^^ mul0D b := by
  simp only [mul0D, xtime_xor]
  ac_rfl

theorem mul0E_xor (a b : Byte) : mul0E (a ^^^ b) = mul0E a ^^^ mul0E b := by
  simp only [mul0E, xtime_xor]
  ac_rfl

end Sys2Proof
end

