-- ==== Sys2Proof/Laws/State.lean ====
section
/-!
SUPPORT. One lemma per field of State for each named update, true by rfl, so that no proof unfolds a record update.
-/
namespace Sys2Proof.Machine

/-! ## seedForward -/

@[simp] theorem State.seedForward_kv (s : State) : s.seedForward.kv = s.kv := rfl
@[simp] theorem State.seedForward_fault (s : State) : s.seedForward.fault = s.fault := rfl
@[simp] theorem State.seedForward_ksize (s : State) : s.seedForward.ksize = s.ksize := rfl
@[simp] theorem State.seedForward_W (s : State) : s.seedForward.W = s.K := rfl
@[simp] theorem State.seedForward_DW (s : State) : s.seedForward.DW = s.DW := rfl
@[simp] theorem State.seedForward_S (s : State) : s.seedForward.S = s.S := rfl
@[simp] theorem State.seedForward_K (s : State) : s.seedForward.K = s.K := rfl
@[simp] theorem State.seedForward_seq (s : State) : s.seedForward.seq = s.seq := rfl
@[simp] theorem State.seedForward_rsp (s : State) : s.seedForward.rsp = s.rsp := rfl
@[simp] theorem State.seedForward_host (s : State) : s.seedForward.host = s.host := rfl
@[simp] theorem State.seedForward_uopIn (s : State) : s.seedForward.uopIn = s.uopIn := rfl
@[simp] theorem State.seedForward_draws (s : State) : s.seedForward.draws = s.draws := rfl

/-! ## writeForward -/

@[simp] theorem State.writeForward_kv (s : State) (v : Word) : (s.writeForward v).kv = s.kv := rfl
@[simp] theorem State.writeForward_fault (s : State) (v : Word) : (s.writeForward v).fault = s.fault := rfl
@[simp] theorem State.writeForward_ksize (s : State) (v : Word) : (s.writeForward v).ksize = s.ksize := rfl
@[simp] theorem State.writeForward_W (s : State) (v : Word) : (s.writeForward v).W = s.W ++ [v] := rfl
@[simp] theorem State.writeForward_DW (s : State) (v : Word) : (s.writeForward v).DW = s.DW := rfl
@[simp] theorem State.writeForward_S (s : State) (v : Word) : (s.writeForward v).S = s.S := rfl
@[simp] theorem State.writeForward_K (s : State) (v : Word) : (s.writeForward v).K = s.K := rfl
@[simp] theorem State.writeForward_seq (s : State) (v : Word) : (s.writeForward v).seq = s.seq := rfl
@[simp] theorem State.writeForward_rsp (s : State) (v : Word) : (s.writeForward v).rsp = s.rsp := rfl
@[simp] theorem State.writeForward_host (s : State) (v : Word) : (s.writeForward v).host = s.host := rfl
@[simp] theorem State.writeForward_uopIn (s : State) (v : Word) : (s.writeForward v).uopIn = s.uopIn := rfl
@[simp] theorem State.writeForward_draws (s : State) (v : Word) : (s.writeForward v).draws = s.draws := rfl

/-! ## clearInverse -/

@[simp] theorem State.clearInverse_kv (s : State) : s.clearInverse.kv = s.kv := rfl
@[simp] theorem State.clearInverse_fault (s : State) : s.clearInverse.fault = s.fault := rfl
@[simp] theorem State.clearInverse_ksize (s : State) : s.clearInverse.ksize = s.ksize := rfl
@[simp] theorem State.clearInverse_W (s : State) : s.clearInverse.W = s.W := rfl
@[simp] theorem State.clearInverse_DW (s : State) : s.clearInverse.DW = [] := rfl
@[simp] theorem State.clearInverse_S (s : State) : s.clearInverse.S = s.S := rfl
@[simp] theorem State.clearInverse_K (s : State) : s.clearInverse.K = s.K := rfl
@[simp] theorem State.clearInverse_seq (s : State) : s.clearInverse.seq = s.seq := rfl
@[simp] theorem State.clearInverse_rsp (s : State) : s.clearInverse.rsp = s.rsp := rfl
@[simp] theorem State.clearInverse_host (s : State) : s.clearInverse.host = s.host := rfl
@[simp] theorem State.clearInverse_uopIn (s : State) : s.clearInverse.uopIn = s.uopIn := rfl
@[simp] theorem State.clearInverse_draws (s : State) : s.clearInverse.draws = s.draws := rfl

/-! ## writeInverse -/

@[simp] theorem State.writeInverse_kv (s : State) (v : Word) : (s.writeInverse v).kv = s.kv := rfl
@[simp] theorem State.writeInverse_fault (s : State) (v : Word) : (s.writeInverse v).fault = s.fault := rfl
@[simp] theorem State.writeInverse_ksize (s : State) (v : Word) : (s.writeInverse v).ksize = s.ksize := rfl
@[simp] theorem State.writeInverse_W (s : State) (v : Word) : (s.writeInverse v).W = s.W := rfl
@[simp] theorem State.writeInverse_DW (s : State) (v : Word) : (s.writeInverse v).DW = s.DW ++ [v] := rfl
@[simp] theorem State.writeInverse_S (s : State) (v : Word) : (s.writeInverse v).S = s.S := rfl
@[simp] theorem State.writeInverse_K (s : State) (v : Word) : (s.writeInverse v).K = s.K := rfl
@[simp] theorem State.writeInverse_seq (s : State) (v : Word) : (s.writeInverse v).seq = s.seq := rfl
@[simp] theorem State.writeInverse_rsp (s : State) (v : Word) : (s.writeInverse v).rsp = s.rsp := rfl
@[simp] theorem State.writeInverse_host (s : State) (v : Word) : (s.writeInverse v).host = s.host := rfl
@[simp] theorem State.writeInverse_uopIn (s : State) (v : Word) : (s.writeInverse v).uopIn = s.uopIn := rfl
@[simp] theorem State.writeInverse_draws (s : State) (v : Word) : (s.writeInverse v).draws = s.draws := rfl

/-! ## setS -/

@[simp] theorem State.setS_kv (s : State) (S : AesState) : (s.setS S).kv = s.kv := rfl
@[simp] theorem State.setS_fault (s : State) (S : AesState) : (s.setS S).fault = s.fault := rfl
@[simp] theorem State.setS_ksize (s : State) (S : AesState) : (s.setS S).ksize = s.ksize := rfl
@[simp] theorem State.setS_W (s : State) (S : AesState) : (s.setS S).W = s.W := rfl
@[simp] theorem State.setS_DW (s : State) (S : AesState) : (s.setS S).DW = s.DW := rfl
@[simp] theorem State.setS_S (s : State) (S : AesState) : (s.setS S).S = S := rfl
@[simp] theorem State.setS_K (s : State) (S : AesState) : (s.setS S).K = s.K := rfl
@[simp] theorem State.setS_seq (s : State) (S : AesState) : (s.setS S).seq = s.seq := rfl
@[simp] theorem State.setS_rsp (s : State) (S : AesState) : (s.setS S).rsp = s.rsp := rfl
@[simp] theorem State.setS_host (s : State) (S : AesState) : (s.setS S).host = s.host := rfl
@[simp] theorem State.setS_uopIn (s : State) (S : AesState) : (s.setS S).uopIn = s.uopIn := rfl
@[simp] theorem State.setS_draws (s : State) (S : AesState) : (s.setS S).draws = s.draws := rfl

/-! ## dropS -/

@[simp] theorem State.dropS_kv (s : State) : s.dropS.kv = s.kv := rfl
@[simp] theorem State.dropS_fault (s : State) : s.dropS.fault = s.fault := rfl
@[simp] theorem State.dropS_ksize (s : State) : s.dropS.ksize = s.ksize := rfl
@[simp] theorem State.dropS_W (s : State) : s.dropS.W = s.W := rfl
@[simp] theorem State.dropS_DW (s : State) : s.dropS.DW = s.DW := rfl
@[simp] theorem State.dropS_S (s : State) : s.dropS.S = Config.freeState s.draws := rfl
@[simp] theorem State.dropS_K (s : State) : s.dropS.K = s.K := rfl
@[simp] theorem State.dropS_seq (s : State) : s.dropS.seq = s.seq := rfl
@[simp] theorem State.dropS_rsp (s : State) : s.dropS.rsp = s.rsp := rfl
@[simp] theorem State.dropS_host (s : State) : s.dropS.host = s.host := rfl
@[simp] theorem State.dropS_uopIn (s : State) : s.dropS.uopIn = s.uopIn := rfl
@[simp] theorem State.dropS_draws (s : State) : s.dropS.draws = s.draws + 1 := rfl

/-! ## loadKey -/

@[simp] theorem State.loadKey_kv (s : State) (key : List Word) : (s.loadKey key).kv = s.kv := rfl
@[simp] theorem State.loadKey_fault (s : State) (key : List Word) : (s.loadKey key).fault = s.fault := rfl
@[simp] theorem State.loadKey_ksize (s : State) (key : List Word) : (s.loadKey key).ksize = s.ksize := rfl
@[simp] theorem State.loadKey_W (s : State) (key : List Word) : (s.loadKey key).W = s.W := rfl
@[simp] theorem State.loadKey_DW (s : State) (key : List Word) : (s.loadKey key).DW = s.DW := rfl
@[simp] theorem State.loadKey_S (s : State) (key : List Word) : (s.loadKey key).S = s.S := rfl
@[simp] theorem State.loadKey_K (s : State) (key : List Word) : (s.loadKey key).K = key := rfl
@[simp] theorem State.loadKey_seq (s : State) (key : List Word) : (s.loadKey key).seq = s.seq := rfl
@[simp] theorem State.loadKey_rsp (s : State) (key : List Word) : (s.loadKey key).rsp = s.rsp := rfl
@[simp] theorem State.loadKey_host (s : State) (key : List Word) : (s.loadKey key).host = s.host := rfl
@[simp] theorem State.loadKey_uopIn (s : State) (key : List Word) : (s.loadKey key).uopIn = s.uopIn := rfl
@[simp] theorem State.loadKey_draws (s : State) (key : List Word) : (s.loadKey key).draws = s.draws := rfl

/-! ## dropKey -/

@[simp] theorem State.dropKey_kv (s : State) : s.dropKey.kv = s.kv := rfl
@[simp] theorem State.dropKey_fault (s : State) : s.dropKey.fault = s.fault := rfl
@[simp] theorem State.dropKey_ksize (s : State) : s.dropKey.ksize = s.ksize := rfl
@[simp] theorem State.dropKey_W (s : State) : s.dropKey.W = s.W := rfl
@[simp] theorem State.dropKey_DW (s : State) : s.dropKey.DW = s.DW := rfl
@[simp] theorem State.dropKey_S (s : State) : s.dropKey.S = s.S := rfl
@[simp] theorem State.dropKey_K (s : State) : s.dropKey.K = [] := rfl
@[simp] theorem State.dropKey_seq (s : State) : s.dropKey.seq = s.seq := rfl
@[simp] theorem State.dropKey_rsp (s : State) : s.dropKey.rsp = s.rsp := rfl
@[simp] theorem State.dropKey_host (s : State) : s.dropKey.host = s.host := rfl
@[simp] theorem State.dropKey_uopIn (s : State) : s.dropKey.uopIn = s.uopIn := rfl
@[simp] theorem State.dropKey_draws (s : State) : s.dropKey.draws = s.draws := rfl

/-! ## setKsize -/

@[simp] theorem State.setKsize_kv (s : State) (k : KeySize) : (s.setKsize k).kv = s.kv := rfl
@[simp] theorem State.setKsize_fault (s : State) (k : KeySize) : (s.setKsize k).fault = s.fault := rfl
@[simp] theorem State.setKsize_ksize (s : State) (k : KeySize) : (s.setKsize k).ksize = k := rfl
@[simp] theorem State.setKsize_W (s : State) (k : KeySize) : (s.setKsize k).W = s.W := rfl
@[simp] theorem State.setKsize_DW (s : State) (k : KeySize) : (s.setKsize k).DW = s.DW := rfl
@[simp] theorem State.setKsize_S (s : State) (k : KeySize) : (s.setKsize k).S = s.S := rfl
@[simp] theorem State.setKsize_K (s : State) (k : KeySize) : (s.setKsize k).K = s.K := rfl
@[simp] theorem State.setKsize_seq (s : State) (k : KeySize) : (s.setKsize k).seq = s.seq := rfl
@[simp] theorem State.setKsize_rsp (s : State) (k : KeySize) : (s.setKsize k).rsp = s.rsp := rfl
@[simp] theorem State.setKsize_host (s : State) (k : KeySize) : (s.setKsize k).host = s.host := rfl
@[simp] theorem State.setKsize_uopIn (s : State) (k : KeySize) : (s.setKsize k).uopIn = s.uopIn := rfl
@[simp] theorem State.setKsize_draws (s : State) (k : KeySize) : (s.setKsize k).draws = s.draws := rfl

/-! ## setSeq -/

@[simp] theorem State.setSeq_kv (s : State) (q : Sequencer) : (s.setSeq q).kv = s.kv := rfl
@[simp] theorem State.setSeq_fault (s : State) (q : Sequencer) : (s.setSeq q).fault = s.fault := rfl
@[simp] theorem State.setSeq_ksize (s : State) (q : Sequencer) : (s.setSeq q).ksize = s.ksize := rfl
@[simp] theorem State.setSeq_W (s : State) (q : Sequencer) : (s.setSeq q).W = s.W := rfl
@[simp] theorem State.setSeq_DW (s : State) (q : Sequencer) : (s.setSeq q).DW = s.DW := rfl
@[simp] theorem State.setSeq_S (s : State) (q : Sequencer) : (s.setSeq q).S = s.S := rfl
@[simp] theorem State.setSeq_K (s : State) (q : Sequencer) : (s.setSeq q).K = s.K := rfl
@[simp] theorem State.setSeq_seq (s : State) (q : Sequencer) : (s.setSeq q).seq = q := rfl
@[simp] theorem State.setSeq_rsp (s : State) (q : Sequencer) : (s.setSeq q).rsp = s.rsp := rfl
@[simp] theorem State.setSeq_host (s : State) (q : Sequencer) : (s.setSeq q).host = s.host := rfl
@[simp] theorem State.setSeq_uopIn (s : State) (q : Sequencer) : (s.setSeq q).uopIn = s.uopIn := rfl
@[simp] theorem State.setSeq_draws (s : State) (q : Sequencer) : (s.setSeq q).draws = s.draws := rfl

/-! ## advance -/

@[simp] theorem State.advance_kv (s : State) (phase : Nat → Sequencer) (i : Nat) (done : Sequencer) :
    (s.advance phase i done).kv = s.kv := rfl
@[simp] theorem State.advance_fault (s : State) (phase : Nat → Sequencer) (i : Nat) (done : Sequencer) :
    (s.advance phase i done).fault = s.fault := rfl
@[simp] theorem State.advance_ksize (s : State) (phase : Nat → Sequencer) (i : Nat) (done : Sequencer) :
    (s.advance phase i done).ksize = s.ksize := rfl
@[simp] theorem State.advance_W (s : State) (phase : Nat → Sequencer) (i : Nat) (done : Sequencer) :
    (s.advance phase i done).W = s.W := rfl
@[simp] theorem State.advance_DW (s : State) (phase : Nat → Sequencer) (i : Nat) (done : Sequencer) :
    (s.advance phase i done).DW = s.DW := rfl
@[simp] theorem State.advance_S (s : State) (phase : Nat → Sequencer) (i : Nat) (done : Sequencer) :
    (s.advance phase i done).S = s.S := rfl
@[simp] theorem State.advance_K (s : State) (phase : Nat → Sequencer) (i : Nat) (done : Sequencer) :
    (s.advance phase i done).K = s.K := rfl
@[simp] theorem State.advance_rsp (s : State) (phase : Nat → Sequencer) (i : Nat) (done : Sequencer) :
    (s.advance phase i done).rsp = s.rsp := rfl
@[simp] theorem State.advance_host (s : State) (phase : Nat → Sequencer) (i : Nat) (done : Sequencer) :
    (s.advance phase i done).host = s.host := rfl
@[simp] theorem State.advance_uopIn (s : State) (phase : Nat → Sequencer) (i : Nat) (done : Sequencer) :
    (s.advance phase i done).uopIn = s.uopIn := rfl
@[simp] theorem State.advance_draws (s : State) (phase : Nat → Sequencer) (i : Nat) (done : Sequencer) :
    (s.advance phase i done).draws = s.draws := rfl
@[simp] theorem State.advance_seq (s : State) (phase : Nat → Sequencer) (i : Nat) (done : Sequencer) :
    (s.advance phase i done).seq = if i + 1 < s.wlen then phase (i + 1) else done := rfl

/-! ## setKv -/

@[simp] theorem State.setKv_kv (s : State) : s.setKv.kv = true := rfl
@[simp] theorem State.setKv_fault (s : State) : s.setKv.fault = s.fault := rfl
@[simp] theorem State.setKv_ksize (s : State) : s.setKv.ksize = s.ksize := rfl
@[simp] theorem State.setKv_W (s : State) : s.setKv.W = s.W := rfl
@[simp] theorem State.setKv_DW (s : State) : s.setKv.DW = s.DW := rfl
@[simp] theorem State.setKv_S (s : State) : s.setKv.S = s.S := rfl
@[simp] theorem State.setKv_K (s : State) : s.setKv.K = s.K := rfl
@[simp] theorem State.setKv_seq (s : State) : s.setKv.seq = s.seq := rfl
@[simp] theorem State.setKv_rsp (s : State) : s.setKv.rsp = s.rsp := rfl
@[simp] theorem State.setKv_host (s : State) : s.setKv.host = s.host := rfl
@[simp] theorem State.setKv_uopIn (s : State) : s.setKv.uopIn = s.uopIn := rfl
@[simp] theorem State.setKv_draws (s : State) : s.setKv.draws = s.draws := rfl

/-! ## respond -/

@[simp] theorem State.respond_kv (s : State) (r : Response) : (s.respond r).kv = s.kv := rfl
@[simp] theorem State.respond_fault (s : State) (r : Response) : (s.respond r).fault = s.fault := rfl
@[simp] theorem State.respond_ksize (s : State) (r : Response) : (s.respond r).ksize = s.ksize := rfl
@[simp] theorem State.respond_W (s : State) (r : Response) : (s.respond r).W = s.W := rfl
@[simp] theorem State.respond_DW (s : State) (r : Response) : (s.respond r).DW = s.DW := rfl
@[simp] theorem State.respond_S (s : State) (r : Response) : (s.respond r).S = s.S := rfl
@[simp] theorem State.respond_K (s : State) (r : Response) : (s.respond r).K = s.K := rfl
@[simp] theorem State.respond_seq (s : State) (r : Response) : (s.respond r).seq = s.seq := rfl
@[simp] theorem State.respond_rsp (s : State) (r : Response) : (s.respond r).rsp = some r := rfl
@[simp] theorem State.respond_host (s : State) (r : Response) : (s.respond r).host = s.host := rfl
@[simp] theorem State.respond_uopIn (s : State) (r : Response) : (s.respond r).uopIn = s.uopIn := rfl
@[simp] theorem State.respond_draws (s : State) (r : Response) : (s.respond r).draws = s.draws := rfl

/-! ## enterFault -/

@[simp] theorem State.enterFault_kv (s : State) : s.enterFault.kv = s.kv := rfl
@[simp] theorem State.enterFault_fault (s : State) : s.enterFault.fault = true := rfl
@[simp] theorem State.enterFault_ksize (s : State) : s.enterFault.ksize = s.ksize := rfl
@[simp] theorem State.enterFault_W (s : State) : s.enterFault.W = s.W := rfl
@[simp] theorem State.enterFault_DW (s : State) : s.enterFault.DW = s.DW := rfl
@[simp] theorem State.enterFault_S (s : State) : s.enterFault.S = s.S := rfl
@[simp] theorem State.enterFault_K (s : State) : s.enterFault.K = s.K := rfl
@[simp] theorem State.enterFault_seq (s : State) : s.enterFault.seq = .idle := rfl
@[simp] theorem State.enterFault_rsp (s : State) : s.enterFault.rsp = some .errFault := rfl
@[simp] theorem State.enterFault_host (s : State) : s.enterFault.host = s.host := rfl
@[simp] theorem State.enterFault_uopIn (s : State) : s.enterFault.uopIn = s.uopIn := rfl
@[simp] theorem State.enterFault_draws (s : State) : s.enterFault.draws = s.draws := rfl

/-! ## closeResponse -/

@[simp] theorem State.closeResponse_kv (s : State) : s.closeResponse.kv = s.kv := rfl
@[simp] theorem State.closeResponse_fault (s : State) : s.closeResponse.fault = s.fault := rfl
@[simp] theorem State.closeResponse_ksize (s : State) : s.closeResponse.ksize = s.ksize := rfl
@[simp] theorem State.closeResponse_W (s : State) : s.closeResponse.W = s.W := rfl
@[simp] theorem State.closeResponse_DW (s : State) : s.closeResponse.DW = s.DW := rfl
@[simp] theorem State.closeResponse_S (s : State) : s.closeResponse.S = s.S := rfl
@[simp] theorem State.closeResponse_K (s : State) : s.closeResponse.K = s.K := rfl
@[simp] theorem State.closeResponse_seq (s : State) : s.closeResponse.seq = s.seq := rfl
@[simp] theorem State.closeResponse_rsp (s : State) : s.closeResponse.rsp = none := rfl
@[simp] theorem State.closeResponse_host (s : State) : s.closeResponse.host = s.host := rfl
@[simp] theorem State.closeResponse_uopIn (s : State) : s.closeResponse.uopIn = s.uopIn := rfl
@[simp] theorem State.closeResponse_draws (s : State) : s.closeResponse.draws = s.draws := rfl

/-! ## setHost -/

@[simp] theorem State.setHost_kv (s : State) (h : List HostEvent) : (s.setHost h).kv = s.kv := rfl
@[simp] theorem State.setHost_fault (s : State) (h : List HostEvent) : (s.setHost h).fault = s.fault := rfl
@[simp] theorem State.setHost_ksize (s : State) (h : List HostEvent) : (s.setHost h).ksize = s.ksize := rfl
@[simp] theorem State.setHost_W (s : State) (h : List HostEvent) : (s.setHost h).W = s.W := rfl
@[simp] theorem State.setHost_DW (s : State) (h : List HostEvent) : (s.setHost h).DW = s.DW := rfl
@[simp] theorem State.setHost_S (s : State) (h : List HostEvent) : (s.setHost h).S = s.S := rfl
@[simp] theorem State.setHost_K (s : State) (h : List HostEvent) : (s.setHost h).K = s.K := rfl
@[simp] theorem State.setHost_seq (s : State) (h : List HostEvent) : (s.setHost h).seq = s.seq := rfl
@[simp] theorem State.setHost_rsp (s : State) (h : List HostEvent) : (s.setHost h).rsp = s.rsp := rfl
@[simp] theorem State.setHost_host (s : State) (h : List HostEvent) : (s.setHost h).host = h := rfl
@[simp] theorem State.setHost_uopIn (s : State) (h : List HostEvent) : (s.setHost h).uopIn = s.uopIn := rfl
@[simp] theorem State.setHost_draws (s : State) (h : List HostEvent) : (s.setHost h).draws = s.draws := rfl

/-! ## setUopIn -/

@[simp] theorem State.setUopIn_kv (s : State) (u : List (BitVec 10)) : (s.setUopIn u).kv = s.kv := rfl
@[simp] theorem State.setUopIn_fault (s : State) (u : List (BitVec 10)) : (s.setUopIn u).fault = s.fault := rfl
@[simp] theorem State.setUopIn_ksize (s : State) (u : List (BitVec 10)) : (s.setUopIn u).ksize = s.ksize := rfl
@[simp] theorem State.setUopIn_W (s : State) (u : List (BitVec 10)) : (s.setUopIn u).W = s.W := rfl
@[simp] theorem State.setUopIn_DW (s : State) (u : List (BitVec 10)) : (s.setUopIn u).DW = s.DW := rfl
@[simp] theorem State.setUopIn_S (s : State) (u : List (BitVec 10)) : (s.setUopIn u).S = s.S := rfl
@[simp] theorem State.setUopIn_K (s : State) (u : List (BitVec 10)) : (s.setUopIn u).K = s.K := rfl
@[simp] theorem State.setUopIn_seq (s : State) (u : List (BitVec 10)) : (s.setUopIn u).seq = s.seq := rfl
@[simp] theorem State.setUopIn_rsp (s : State) (u : List (BitVec 10)) : (s.setUopIn u).rsp = s.rsp := rfl
@[simp] theorem State.setUopIn_host (s : State) (u : List (BitVec 10)) : (s.setUopIn u).host = s.host := rfl
@[simp] theorem State.setUopIn_uopIn (s : State) (u : List (BitVec 10)) : (s.setUopIn u).uopIn = u := rfl
@[simp] theorem State.setUopIn_draws (s : State) (u : List (BitVec 10)) : (s.setUopIn u).draws = s.draws := rfl

/-! ## resetCore -/

@[simp] theorem State.resetCore_kv (s : State) : s.resetCore.kv = false := rfl
@[simp] theorem State.resetCore_fault (s : State) : s.resetCore.fault = false := rfl
@[simp] theorem State.resetCore_ksize (s : State) : s.resetCore.ksize = Config.freeKeySize s.draws := rfl
@[simp] theorem State.resetCore_W (s : State) : s.resetCore.W = (List.range (Config.freeKeySize s.draws).wlen).map (Config.freeForwardWord s.draws) := rfl
@[simp] theorem State.resetCore_DW (s : State) : s.resetCore.DW = (List.range (Config.freeKeySize s.draws).wlen).map (Config.freeInverseWord s.draws) := rfl
@[simp] theorem State.resetCore_S (s : State) : s.resetCore.S = Config.freeState s.draws := rfl
@[simp] theorem State.resetCore_K (s : State) : s.resetCore.K = [] := rfl
@[simp] theorem State.resetCore_seq (s : State) : s.resetCore.seq = .idle := rfl
@[simp] theorem State.resetCore_rsp (s : State) : s.resetCore.rsp = none := rfl
@[simp] theorem State.resetCore_host (s : State) : s.resetCore.host = s.host := rfl
@[simp] theorem State.resetCore_uopIn (s : State) : s.resetCore.uopIn = [] := rfl
@[simp] theorem State.resetCore_draws (s : State) : s.resetCore.draws = s.draws + 1 := rfl

/-! ## Status values -/

@[simp] theorem State.nr_eq (s : State) : s.nr = s.ksize.nr := rfl
@[simp] theorem State.wlen_eq (s : State) : s.wlen = s.ksize.wlen := rfl

/-! ## State.reset -/

@[simp] theorem State.reset_kv : State.reset.kv = false := rfl
@[simp] theorem State.reset_fault : State.reset.fault = false := rfl
@[simp] theorem State.reset_K : State.reset.K = [] := rfl
@[simp] theorem State.reset_seq : State.reset.seq = .idle := rfl
@[simp] theorem State.reset_rsp : State.reset.rsp = none := rfl
@[simp] theorem State.reset_host : State.reset.host = [] := rfl
@[simp] theorem State.reset_uopIn : State.reset.uopIn = [] := rfl

end Sys2Proof.Machine
end

