-- ==== Sys2Proof/Laws/Ops.lean ====
section
/-!
SUPPORT. One lemma per shared operation that says everything it can do, so that a proof cites it instead of unfolding
the operation.
-/
namespace Sys2Proof.Machine

/-! ## Acceptance (R180) -/

theorem State.accept_of_fault {s : State} (h : s.fault = true) (c : CommandClass) (p : State → State) :
    s.accept c p = s.respond .errFault := by
  simp [State.accept, State.acceptance, h]

theorem State.accept_keyload {s : State} (h : s.fault = false) (p : State → State) :
    s.accept .keyload p = p s := by
  simp [State.accept, State.acceptance, h]

theorem State.accept_block {s : State} (h : s.fault = false) (hk : s.kv = true) (p : State → State) :
    s.accept .block p = p s := by
  simp [State.accept, State.acceptance, h, hk]

theorem State.accept_block_of_noKey {s : State} (h : s.fault = false) (hk : s.kv = false) (p : State → State) :
    s.accept .block p = s.respond .errNoKey := by
  simp [State.accept, State.acceptance, h, hk]

theorem State.acceptReserved_eq (s : State) :
    s.acceptReserved = s.respond (if s.fault then .errFault else .errBadCmd) := by
  cases h : s.fault <;> simp [State.acceptReserved, State.accept, State.acceptance, h]

/-- A command of a class is refused with one of the three codes, or performed. -/
theorem State.accept_cases (s : State) (c : CommandClass) (p : State → State) :
    s.accept c p = s.respond .errFault ∧ s.fault = true ∨
    s.accept c p = s.respond .errBadCmd ∧ s.fault = false ∧ c = .reserved ∨
    s.accept c p = s.respond .errNoKey ∧ s.fault = false ∧ s.kv = false ∧ c = .block ∨
    s.accept c p = p s ∧ s.fault = false ∧ c ≠ .reserved ∧ (c = .block → s.kv = true) := by
  cases hf : s.fault <;> cases c <;> cases hk : s.kv <;> simp [State.accept, State.acceptance, hf, hk]

/-! ## The windowed read (R166) -/

theorem State.keyWindow_of_le {s : State} {base : Nat} (h : base + 4 ≤ s.wlen) (sel : Sel) :
    s.keyWindow sel base = some (windowAt (s.schedule sel) base) := by
  simp only [State.keyWindow, if_neg (Nat.not_lt.mpr h)]

theorem State.keyWindow_of_gt {s : State} {base : Nat} (h : base + 4 > s.wlen) (sel : Sel) :
    s.keyWindow sel base = none := by
  simp only [State.keyWindow, if_pos h]

/-! ## Micro-operations (R140) -/

theorem State.transform_of_ok {s : State} (h : s.fault = false) (f : AesState → AesState) :
    s.transform f = s.setS (f s.S) := by
  simp [State.transform, h]

theorem State.transform_of_fault {s : State} (h : s.fault = true) (f : AesState → AesState) :
    s.transform f = s := by
  simp [State.transform, h]

theorem State.addRoundKey_of_le {s : State} {base : Nat} (hf : s.fault = false) (h : base + 4 ≤ s.wlen) (sel : Sel) :
    s.addRoundKey sel base = s.setS (s.S.addRoundKey (windowAt (s.schedule sel) base)) := by
  simp [State.addRoundKey, hf, State.keyWindow_of_le h]

theorem State.addRoundKey_of_gt {s : State} {base : Nat} (hf : s.fault = false) (h : base + 4 > s.wlen) (sel : Sel) :
    s.addRoundKey sel base = s.enterFault := by
  simp [State.addRoundKey, hf, State.keyWindow_of_gt h]

theorem State.runUop_of_fault {s : State} (h : s.fault = true) (u : Uop) : s.runUop u = s := by
  cases u <;> simp [State.runUop, State.transform, State.addRoundKey, h]

/-- A micro-operation leaves the core as it is (in the fault state), replaces `S` alone, or enters the fault state; the
last only for an ADD_ROUND_KEY out of bounds. -/
theorem State.runUop_cases (s : State) (u : Uop) :
    s.runUop u = s ∧ s.fault = true ∨
    s.fault = false ∧ (∃ S, s.runUop u = s.setS S) ∨
    s.fault = false ∧ s.runUop u = s.enterFault ∧ ∃ sel base, u = .addRoundKey sel base ∧ base + 4 > s.wlen := by
  cases hf : s.fault
  case true => exact .inl ⟨State.runUop_of_fault hf u, rfl⟩
  case false =>
    cases u
    case addRoundKey sel base =>
      by_cases h : base + 4 > s.wlen
      · exact .inr (.inr ⟨rfl, State.addRoundKey_of_gt hf h sel, sel, base, rfl, h⟩)
      · exact .inr (.inl ⟨rfl, _, State.addRoundKey_of_le hf (Nat.not_lt.mp h) sel⟩)
    all_goals exact .inr (.inl ⟨rfl, _, State.transform_of_ok hf _⟩)

/-- What `S` becomes under a micro-operation that completes, from the two schedules alone. -/
def Uop.onS (W DW : List Word) : Uop → AesState → AesState
  | .subBytes, S => S.subBytes
  | .invSubBytes, S => S.invSubBytes
  | .shiftRows, S => S.shiftRows
  | .invShiftRows, S => S.invShiftRows
  | .mixColumns, S => S.mixColumns
  | .invMixColumns, S => S.invMixColumns
  | .addRoundKey .F base, S => S.addRoundKey (windowAt W base)
  | .addRoundKey .I base, S => S.addRoundKey (windowAt DW base)

/-- A micro-operation whose window, if it reads one, is in bounds. -/
def Uop.InBounds (wlen : Nat) : Uop → Prop
  | .addRoundKey _ base => base + 4 ≤ wlen
  | .subBytes | .invSubBytes | .shiftRows | .invShiftRows | .mixColumns | .invMixColumns => True

theorem State.runUop_eq {s : State} (hf : s.fault = false) {u : Uop} (h : Uop.InBounds s.wlen u) :
    s.runUop u = s.setS (Uop.onS s.W s.DW u s.S) := by
  cases u
  case addRoundKey sel base => cases sel <;> exact State.addRoundKey_of_le hf h _
  all_goals exact State.transform_of_ok hf _

theorem exec_toInstr (u : Uop) (s : State) : exec u.toInstr s = .next (s.runUop u) := by
  cases u <;> rfl

/-! ## Issuing a program (R140) -/

/-- A program whose windows are all in bounds runs to its end: `S` is taken through it, the sequencer ends at the last
position, and nothing else changes. -/
theorem State.foldl_issue {phase : Nat → Sequencer} : ∀ (program : List (Nat × Uop)) {s : State}, s.fault = false →
    (∀ x ∈ program, Uop.InBounds s.wlen x.2) →
    ∃ q, program.foldl (State.issue phase) s =
      (s.setS (program.foldl (fun S x => Uop.onS s.W s.DW x.2 S) s.S)).setSeq q
  | [], s, _, _ => ⟨s.seq, rfl⟩
  | x :: rest, s, hf, hb => by
    have hx : State.issue phase s x = (s.setSeq (phase x.1)).setS (Uop.onS s.W s.DW x.2 s.S) := by
      simp only [State.issue, hf, Bool.false_eq_true, if_false]
      exact State.runUop_eq (s := s.setSeq (phase x.1)) hf (hb x (by simp))
    obtain ⟨q, hq⟩ := State.foldl_issue (phase := phase) rest
      (s := (s.setSeq (phase x.1)).setS (Uop.onS s.W s.DW x.2 s.S)) hf
      fun y hy => hb y (List.mem_cons_of_mem _ hy)
    exact ⟨q, by rw [List.foldl_cons, List.foldl_cons, hx]; exact hq⟩

theorem State.finishBlock_of_ok {s : State} (h : s.fault = false) :
    s.finishBlock = ((s.respond (.okBlock s.S.toBus)).setSeq .idle).dropS := by
  simp [State.finishBlock, h]

/-- A block command whose windows are all in bounds answers OK with the block its program makes of its input, and keeps
every retained field. -/
theorem State.performBlock_eq {s : State} (phase : Nat → Sequencer) {program : List (Nat × Uop)} (hf : s.fault = false)
    (hb : ∀ x ∈ program, Uop.InBounds s.wlen x.2) (block : AesState) :
    s.performBlock phase program block =
      ((s.respond (.okBlock (program.foldl (fun S x => Uop.onS s.W s.DW x.2 S) block).toBus)).setSeq .idle).dropS := by
  obtain ⟨q, hq⟩ := State.foldl_issue (phase := phase) program (s := s.setS block) hf hb
  rw [State.performBlock, hq, State.finishBlock_of_ok (by exact hf)]
  rfl

/-- Every window the two programs ask for is in bounds (R167). -/
theorem cipherProgram_inBounds (nr : Nat) : ∀ x ∈ cipherProgram nr, Uop.InBounds (4 * (nr + 1)) x.2 := by
  intro x hx
  simp only [cipherProgram, List.mem_append, List.mem_flatMap, List.mem_range', List.mem_cons, List.not_mem_nil,
    or_false] at hx
  obtain (rfl | ⟨r, ⟨i, hi, rfl⟩, rfl | rfl | rfl | rfl⟩) | rfl | rfl | rfl := hx <;>
    simp only [Uop.InBounds] <;> omega

theorem decipherProgram_inBounds (nr : Nat) : ∀ x ∈ decipherProgram nr, Uop.InBounds (4 * (nr + 1)) x.2 := by
  intro x hx
  simp only [decipherProgram, List.mem_append, List.mem_flatMap, List.mem_reverse, List.mem_range', List.mem_cons,
    List.not_mem_nil, or_false] at hx
  obtain (rfl | ⟨r, ⟨i, hi, rfl⟩, rfl | rfl | rfl | rfl⟩) | rfl | rfl | rfl := hx <;>
    simp only [Uop.InBounds] <;> omega

end Sys2Proof.Machine
end

