-- ==== Sys2Proof/Laws/KeySchedule.lean ====
section
/-!
SUPPORT. What the two expansion loops and a whole key load do.
-/
namespace Sys2Proof.Machine

theorem scheduleWord_append_left {A B : List Word} {i : Nat} (h : i < A.length) :
    scheduleWord (A ++ B) i = scheduleWord A i := by
  simp [scheduleWord, List.getD_eq_getElem?_getD, List.getElem?_append_left h]

theorem scheduleWord_append_length (A : List Word) (v : Word) : scheduleWord (A ++ [v]) A.length = v := by
  simp [scheduleWord, List.getD_eq_getElem?_getD]

/-- A word is computed from earlier words only (R160). -/
theorem expandWord_append {k : KeySize} {A B : List Word} {i : Nat} (hi : i ≤ A.length) (h0 : 0 < i) (hk : 0 < k.nk) :
    expandWord k (A ++ B) i = expandWord k A i := by
  unfold expandWord
  rw [scheduleWord_append_left (show i - 1 < A.length by omega),
    scheduleWord_append_left (show i - k.nk < A.length by omega)]

theorem nk_pos (k : KeySize) : 0 < k.nk := by cases k <;> decide

theorem nk_le_wlen (k : KeySize) : k.nk ≤ k.wlen := by cases k <;> decide

theorem nk_lt_wlen (k : KeySize) : k.nk < k.wlen := by cases k <;> decide

/-- One step of KEYEXP at index `i`. -/
theorem keyexpStep_eq {s : State} {i : Nat} (h : s.seq = .keyexp i) :
    keyexpStep s = { s with
      W := s.W ++ [expandWord s.ksize s.W i]
      seq := if i + 1 < s.wlen then .keyexp (i + 1) else .invkeyexp 0 } := by
  simp only [keyexpStep, h]
  rfl

/-- One step of INVKEYEXP at index `i`. -/
theorem invkeyexpStep_eq {s : State} {i : Nat} (h : s.seq = .invkeyexp i) :
    invkeyexpStep s = { s with
      DW := s.DW ++ [invMixWord (scheduleWord s.W i)]
      seq := if i + 1 < s.wlen then .invkeyexp (i + 1) else .idle } := by
  simp only [invkeyexpStep, h]
  rfl

/-- `n` steps of KEYEXP from index `i`: `n` words are appended, each the expansion of the words before it, and the loop has
ended where `i + n` is the word count. -/
theorem keyexpStep_iterate : ∀ (n : Nat) {s : State} {i : Nat}, s.seq = .keyexp i → s.W.length = i → 0 < i →
    i < s.wlen → i + n ≤ s.wlen →
    ∃ L, keyexpStep^[n] s =
        { s with W := s.W ++ L, seq := if i + n < s.wlen then .keyexp (i + n) else .invkeyexp 0 } ∧ L.length = n ∧
      ∀ j, i ≤ j → j < i + n → scheduleWord (s.W ++ L) j = expandWord s.ksize (s.W ++ L) j
  | 0, s, i, hq, _, _, hi, _ => ⟨[], by cases s; simp_all, rfl, fun j h₁ h₂ => by omega⟩
  | 1, s, i, hq, hl, h0, _, hn => by
    refine ⟨[expandWord s.ksize s.W i], keyexpStep_eq hq, rfl, fun j h₁ h₂ => ?_⟩
    obtain rfl : j = i := by omega
    rw [expandWord_append (by omega) h0 (nk_pos _)]
    subst hl
    exact scheduleWord_append_length _ _
  | n + 2, s, i, hq, hl, h0, _, hn => by
    have hstep := keyexpStep_eq hq
    rw [if_pos (by omega)] at hstep
    obtain ⟨L, hL, hlen, hrec⟩ := keyexpStep_iterate (n + 1)
      (s := { s with W := s.W ++ [expandWord s.ksize s.W i], seq := .keyexp (i + 1) }) (i := i + 1) rfl
      (by simp [hl]) (by omega) (show i + 1 < s.wlen by omega) (show i + 1 + (n + 1) ≤ s.wlen by omega)
    refine ⟨expandWord s.ksize s.W i :: L, ?_, by simp [hlen], fun j h₁ h₂ => ?_⟩
    · rw [Function.iterate_succ_apply, hstep, hL, show i + 1 + (n + 1) = i + (n + 2) by omega,
        List.append_assoc]
      rfl
    · rw [List.append_cons]
      rcases Nat.lt_or_ge i j with h | h
      · exact hrec j (by omega) (by omega)
      · obtain rfl : j = i := by omega
        rw [List.append_assoc, expandWord_append (by omega) h0 (nk_pos _), ← List.append_assoc,
          scheduleWord_append_left (by simp [hl])]
        subst hl
        exact scheduleWord_append_length _ _

/-- `n` steps of INVKEYEXP from index `i`: `n` words are appended, each the transform of the forward word, and the loop has
ended where `i + n` is the word count. -/
theorem invkeyexpStep_iterate : ∀ (n : Nat) {s : State} {i : Nat}, s.seq = .invkeyexp i → i < s.wlen →
    i + n ≤ s.wlen →
    invkeyexpStep^[n] s = { s with
      DW := s.DW ++ (List.range' i n).map (fun j => invMixWord (scheduleWord s.W j))
      seq := if i + n < s.wlen then .invkeyexp (i + n) else .idle }
  | 0, s, i, hq, hi, _ => by cases s; simp_all
  | 1, s, i, hq, _, _ => invkeyexpStep_eq hq
  | n + 2, s, i, hq, _, hn => by
    have hstep := invkeyexpStep_eq hq
    rw [if_pos (by omega)] at hstep
    rw [Function.iterate_succ_apply, hstep, invkeyexpStep_iterate (n + 1)
      (s := { s with DW := s.DW ++ [invMixWord (scheduleWord s.W i)], seq := .invkeyexp (i + 1) }) (i := i + 1) rfl
      (show i + 1 < s.wlen by omega) (show i + 1 + (n + 1) ≤ s.wlen by omega),
      show i + 1 + (n + 1) = i + (n + 2) by omega,
      List.range'_succ (n := n + 1), List.map_cons, List.append_assoc]
    rfl

theorem map_scheduleWord_range' (W : List Word) (f : Word → Word) :
    (List.range' 0 W.length).map (fun j => f (scheduleWord W j)) = W.map f := by
  apply List.ext_getElem (by simp)
  intro i h₁ h₂
  have hi : i < W.length := by simpa using h₂
  simp [scheduleWord, List.getD_eq_getElem?_getD, List.getElem?_eq_getElem hi]

/-- The equations of a forward schedule from the loop's recurrence. -/
theorem isForwardSchedule_of_expandWord {k : KeySize} {key L : List Word} (hkey : key.length = k.nk)
    (hlen : L.length = k.wlen - k.nk)
    (h : ∀ j, k.nk ≤ j → j < k.wlen → scheduleWord (key ++ L) j = expandWord k (key ++ L) j) :
    IsForwardSchedule k key (key ++ L) where
  length := by have := nk_le_wlen k; simp [hkey, hlen]; omega
  seed := fun j hj => scheduleWord_append_left (by omega)
  atMultiple := fun i h₁ h₂ hm => by rw [h i h₁ h₂]; simp only [expandWord, if_pos hm]
  atFour := fun i h₁ h₂ hk hm => by
    rw [h i h₁ h₂]
    subst hk
    have h8 : KeySize.nk .k256 = 8 := rfl
    rw [h8] at hm
    simp only [expandWord, h8, hm]
    simp
  elsewhere := fun i h₁ h₂ hm hk => by
    rw [h i h₁ h₂]
    have : ¬ (k.nk = 8 ∧ i % k.nk = 4) := by
      rintro ⟨h8, h4⟩
      cases k
      case k256 => exact hk ⟨rfl, h4⟩
      all_goals exact absurd h8 (by decide)
    simp only [expandWord, if_neg hm, if_neg this]

/-- Everything `key_expand` does (R160): the forward schedule of the key is built and phase INVKEYEXP begins. -/
theorem State.keyExpand_eq {s : State} (hkey : s.K.length = s.ksize.nk) :
    ∃ W, IsForwardSchedule s.ksize s.K W ∧ s.keyExpand = { s with W := W, seq := .invkeyexp 0 } := by
  have hlt := nk_lt_wlen s.ksize
  have hend : s.ksize.nk + (s.wlen - s.ksize.nk) = s.wlen := Nat.add_sub_cancel' hlt.le
  obtain ⟨L, hL, hlen, hrec⟩ := keyexpStep_iterate (s.wlen - s.ksize.nk)
    (s := s.seedForward.setSeq (.keyexp s.ksize.nk)) rfl hkey (nk_pos s.ksize) hlt hend.le
  refine ⟨s.K ++ L, isForwardSchedule_of_expandWord hkey hlen fun j h₁ h₂ => hrec j h₁ (h₂.trans_eq hend.symm), ?_⟩
  rw [State.keyExpand, hL]
  split
  case isTrue h => exact absurd h (Nat.not_lt.mpr hend.ge)
  case isFalse => rfl

/-- Everything `inv_key_expand` does (R164): every word is transformed and the sequencer idles. -/
theorem State.invKeyExpand_eq {s : State} (hW : s.W.length = s.wlen) :
    s.invKeyExpand = { s with DW := s.W.map invMixWord, seq := .idle } := by
  have hpos : 0 < s.wlen := (Nat.zero_le _).trans_lt (nk_lt_wlen s.ksize)
  rw [State.invKeyExpand, invkeyexpStep_iterate s.wlen (s := s.clearInverse.setSeq (.invkeyexp 0)) rfl hpos
    (Nat.zero_add _).le]
  split
  case isTrue h => exact absurd h (Nat.not_lt.mpr (Nat.zero_add _).ge)
  case isFalse => simp only [State.clearInverse, State.setSeq, List.nil_append, ← hW, map_scheduleWord_range']

/-- Everything a performed key load does (R181 to R183). -/
theorem State.performKeyload_eq {k : KeySize} {key : List Word} (hkey : key.length = k.nk) (s : State) :
    ∃ W, IsForwardSchedule k key W ∧
      s.performKeyload k key =
        { s with ksize := k, W := W, DW := W.map invMixWord, kv := true, K := [], seq := .idle, rsp := some .ok } := by
  obtain ⟨W, hW, he⟩ := State.keyExpand_eq (s := (s.setKsize k).loadKey key) hkey
  refine ⟨W, hW, ?_⟩
  rw [State.performKeyload, he, State.invKeyExpand_eq (by exact hW.length)]
  rfl

end Sys2Proof.Machine
end

