-- ==== Sys2Proof/Laws/Memory.lean ====
section
/-!
SUPPORT. Every operation on the schedule memories keeps their canonical form (10_state.md rules R26, R27).
-/
namespace Sys2Proof.Machine

theorem Memory.wf_iff {s : State} : Memory.wf s = true ↔ s.W.length = s.wlen ∧ s.DW.length = s.wlen := by
  rw [Memory.wf, Bool.and_eq_true, decide_eq_true_iff, decide_eq_true_iff]

/-- The form depends on the key size and the two schedules alone. -/
theorem Memory.wf_congr {s t : State} (hk : t.ksize = s.ksize) (hW : t.W = s.W) (hD : t.DW = s.DW) :
    Memory.wf t = Memory.wf s := by
  rw [Bool.eq_iff_iff, Memory.wf_iff, Memory.wf_iff, State.wlen, State.wlen, hk, hW, hD]

theorem State.reset_memory_wf : Memory.wf State.reset = true := by decide

theorem State.resetCore_memory_wf (s : State) : Memory.wf s.resetCore = true := by
  rw [Memory.wf_iff]
  simp

theorem State.performKeyload_memory_wf {k : KeySize} {key : List Word} (hkey : key.length = k.nk) (s : State) :
    Memory.wf (s.performKeyload k key) = true := by
  obtain ⟨W, hW, h⟩ := State.performKeyload_eq hkey s
  rw [h]
  simp [Memory.wf_iff, hW.length]

theorem State.runUop_memory_wf (s : State) (u : Uop) : Memory.wf (s.runUop u) = Memory.wf s := by
  rcases State.runUop_cases s u with ⟨h, _⟩ | ⟨_, _, h⟩ | ⟨_, h, _⟩ <;> rw [h] <;> rfl

theorem State.issue_memory_wf (phase : Nat → Sequencer) (s : State) (x : Nat × Uop) :
    Memory.wf (State.issue phase s x) = Memory.wf s := by
  unfold State.issue
  split
  · rfl
  · exact State.runUop_memory_wf _ _

theorem State.performBlock_memory_wf (phase : Nat → Sequencer) (program : List (Nat × Uop)) (block : AesState)
    (s : State) : Memory.wf (s.performBlock phase program block) = Memory.wf s := by
  have hfold : ∀ (l : List (Nat × Uop)) (t : State), Memory.wf (l.foldl (State.issue phase) t) = Memory.wf t := by
    intro l
    induction l with
    | nil => exact fun t => rfl
    | cons x l ih => exact fun t => (ih _).trans (State.issue_memory_wf phase t x)
  have hfinish : ∀ t : State, Memory.wf t.finishBlock = Memory.wf t := by
    intro t
    unfold State.finishBlock
    split <;> rfl
  rw [State.performBlock, hfinish, hfold]
  rfl

end Sys2Proof.Machine
end

