-- ==== Sys2Proof/Laws/PerInstr.lean ====
section
/-!
SUPPORT. Statements about every instruction as it is written: one lemma per constructor.
-/
namespace Sys2Proof.Laws.TableRow

/-- A command code whose word is a row's `match` under the row's `mask`. -/
def IsCommand (mask row : BitVec 3) : Code → Prop
  | .command cmd _ _ => cmd &&& mask = row
  | .uop _ => False

/-- A micro-operation code whose word is a row's `match` under the row's `mask`. -/
def IsUop (mask row : BitVec 10) : Code → Prop
  | .command _ _ _ => False
  | .uop word => word &&& mask = row

/-- The code of an instruction is one of its row of the opcode table: the encoded word under the row's `mask` is the row's
`match`, and the fields of ADD_ROUND_KEY hold `sel` and `base` (30_encoding.md rules R82, R86, R87). -/
def Statement (i : Instr) : Prop :=
  wellFormed i = true →
  match i with
  | .keyload128 _ _ _ _ => IsCommand 0x7 0x0 (encode i)
  | .keyload192 _ _ _ _ _ _ => IsCommand 0x7 0x1 (encode i)
  | .keyload256 _ _ _ _ _ _ _ _ => IsCommand 0x7 0x2 (encode i)
  | .cipher _ => IsCommand 0x7 0x4 (encode i)
  | .decipher _ => IsCommand 0x7 0x5 (encode i)
  | .subBytes => IsUop 0x3ff 0x000 (encode i)
  | .invSubBytes => IsUop 0x3ff 0x080 (encode i)
  | .shiftRows => IsUop 0x3ff 0x100 (encode i)
  | .invShiftRows => IsUop 0x3ff 0x180 (encode i)
  | .mixColumns => IsUop 0x3ff 0x200 (encode i)
  | .invMixColumns => IsUop 0x3ff 0x280 (encode i)
  | .addRoundKey sel base => IsUop 0x380 0x300 (encode i) ∧
      ∃ word, encode i = .uop word ∧ word.extractLsb' 6 1 = sel.bit ∧ (word.extractLsb' 0 6).toNat = base

theorem keyload128 (k0 k1 k2 k3 : Word) : Statement (.keyload128 k0 k1 k2 k3) := fun _ => rfl

theorem keyload192 (k0 k1 k2 k3 k4 k5 : Word) : Statement (.keyload192 k0 k1 k2 k3 k4 k5) := fun _ => rfl

theorem keyload256 (k0 k1 k2 k3 k4 k5 k6 k7 : Word) : Statement (.keyload256 k0 k1 k2 k3 k4 k5 k6 k7) := fun _ => rfl

theorem cipher (block : AesState) : Statement (.cipher block) := fun _ => rfl

theorem decipher (block : AesState) : Statement (.decipher block) := fun _ => rfl

theorem subBytes : Statement .subBytes := fun _ => rfl

theorem invSubBytes : Statement .invSubBytes := fun _ => rfl

theorem shiftRows : Statement .shiftRows := fun _ => rfl

theorem invShiftRows : Statement .invShiftRows := fun _ => rfl

theorem mixColumns : Statement .mixColumns := fun _ => rfl

theorem invMixColumns : Statement .invMixColumns := fun _ => rfl

/-- The word of ADD_ROUND_KEY, field by field, at every value its fields admit. -/
theorem addRoundKey_fields : ∀ (sel : BitVec 1) (base : Fin 64),
    uopWord 6 sel (BitVec.ofNat 6 base.val) &&& 0x380 = 0x300 ∧
    (uopWord 6 sel (BitVec.ofNat 6 base.val)).extractLsb' 6 1 = sel ∧
    ((uopWord 6 sel (BitVec.ofNat 6 base.val)).extractLsb' 0 6).toNat = base.val := by
  decide

theorem addRoundKey (sel : Sel) (base : Nat) : Statement (.addRoundKey sel base) := fun h => by
  have hb : base < 64 := by simpa [wellFormed] using h
  have hw := addRoundKey_fields sel.bit ⟨base, hb⟩
  exact ⟨hw.1, _, rfl, hw.2.1, hw.2.2⟩

end Sys2Proof.Laws.TableRow
end

