-- ==== Sys2Proof/Laws/Step.lean ====
section
/-!
SUPPORT. Everything an instruction and a step can do, said once.
-/
namespace Sys2Proof.Machine

/-- A key load is refused with ERR_FAULT, or completes. -/
theorem State.accept_keyload_cases (s : State) {k : KeySize} {key : List Word} (hkey : key.length = k.nk) :
    s.accept .keyload (State.performKeyload k key) = s.respond .errFault ∧ s.fault = true ∨
    ∃ W, IsForwardSchedule k key W ∧ s.fault = false ∧ s.accept .keyload (State.performKeyload k key) =
      { s with ksize := k, W := W, DW := W.map invMixWord, kv := true, K := [], seq := .idle, rsp := some .ok } := by
  by_cases hf : s.fault = true
  · exact .inl ⟨State.accept_of_fault hf _ _, hf⟩
  · have hf' : s.fault = false := by simpa using hf
    obtain ⟨W, hW, he⟩ := State.performKeyload_eq hkey s
    exact .inr ⟨W, hW, hf', (State.accept_keyload hf' _).trans he⟩

/-- A block command is refused with ERR_FAULT or ERR_NOKEY, or completes. -/
theorem State.accept_block_cases (s : State) (phase : Nat → Sequencer) {program : List (Nat × Uop)} (b : AesState)
    (hb : ∀ x ∈ program, Uop.InBounds s.wlen x.2) :
    s.accept .block (State.performBlock phase program b) = s.respond .errFault ∧ s.fault = true ∨
    s.accept .block (State.performBlock phase program b) = s.respond .errNoKey ∧ s.fault = false ∧ s.kv = false ∨
    ∃ out, s.fault = false ∧ s.kv = true ∧ s.accept .block (State.performBlock phase program b) =
      ((s.respond (.okBlock out)).setSeq .idle).dropS := by
  by_cases hf : s.fault = true
  · exact .inl ⟨State.accept_of_fault hf _ _, hf⟩
  · have hf' : s.fault = false := by simpa using hf
    by_cases hk : s.kv = true
    · exact .inr (.inr ⟨_, hf', hk, (State.accept_block hf' hk _).trans (State.performBlock_eq phase hf' hb b)⟩)
    · have hk' : s.kv = false := by simpa using hk
      exact .inr (.inl ⟨State.accept_block_of_noKey hf' hk' _, hf', hk'⟩)

/-- What an instruction can do: be refused with ERR_FAULT or ERR_NOKEY, complete as a key load or as a block command, or run as
a micro-operation. -/
inductive ExecCase (i : Instr) (s : State) : Prop where
  | errFault (hf : s.fault = true) (he : exec i s = .next (s.respond .errFault))
  | errNoKey (hi : isKeyload i = false) (hf : s.fault = false) (hk : s.kv = false)
      (he : exec i s = .next (s.respond .errNoKey))
  | keyload (k : KeySize) (key W : List Word) (hkey : key.length = k.nk) (hW : IsForwardSchedule k key W)
      (hi : isKeyload i = true) (hf : s.fault = false)
      (he : exec i s = .next { s with
        ksize := k, W := W, DW := W.map invMixWord, kv := true, K := [], seq := .idle, rsp := some .ok })
  | block (out : BitVec 128) (hi : isKeyload i = false) (hf : s.fault = false) (hk : s.kv = true)
      (he : exec i s = .next ((s.respond (.okBlock out)).setSeq .idle).dropS)
  | uop (u : Uop) (hi : i = u.toInstr) (he : exec i s = .next (s.runUop u))

theorem ExecCase.of_keyload {i : Instr} {s : State} {k : KeySize} {key : List Word} (hi : isKeyload i = true)
    (hkey : key.length = k.nk) (h : exec i s = .next (s.accept .keyload (State.performKeyload k key))) :
    ExecCase i s := by
  rcases State.accept_keyload_cases s hkey with ⟨he, hf⟩ | ⟨W, hW, hf, he⟩ <;> rw [he] at h
  · exact .errFault hf h
  · exact .keyload k key W hkey hW hi hf h

theorem ExecCase.of_block {i : Instr} {s : State} {phase : Nat → Sequencer} {program : List (Nat × Uop)}
    {b : AesState} (hi : isKeyload i = false) (hb : ∀ x ∈ program, Uop.InBounds s.wlen x.2)
    (h : exec i s = .next (s.accept .block (State.performBlock phase program b))) : ExecCase i s := by
  rcases State.accept_block_cases s phase b hb with ⟨he, hf⟩ | ⟨he, hf, hk⟩ | ⟨out, hf, hk, he⟩ <;> rw [he] at h
  · exact .errFault hf h
  · exact .errNoKey hi hf hk h
  · exact .block out hi hf hk h

theorem exec_cases (i : Instr) (s : State) : ExecCase i s := by
  cases i
  case keyload128 => exact .of_keyload rfl rfl rfl
  case keyload192 => exact .of_keyload rfl rfl rfl
  case keyload256 => exact .of_keyload rfl rfl rfl
  case cipher => exact .of_block rfl (cipherProgram_inBounds s.nr) rfl
  case decipher => exact .of_block rfl (decipherProgram_inBounds s.nr) rfl
  case subBytes => exact .uop .subBytes rfl rfl
  case invSubBytes => exact .uop .invSubBytes rfl rfl
  case shiftRows => exact .uop .shiftRows rfl rfl
  case invShiftRows => exact .uop .invShiftRows rfl rfl
  case mixColumns => exact .uop .mixColumns rfl rfl
  case invMixColumns => exact .uop .invMixColumns rfl rfl
  case addRoundKey sel base => exact .uop (.addRoundKey sel base) rfl rfl

/-- A step is idle, a RESET, a decoded command, a reserved command, a decoded micro-operation, or the refusal of a reserved
micro-operation word. -/
theorem step_cases (s : State) :
    s.uopIn = [] ∧ s.host = [] ∧ step s = .next s.closeResponse ∨
    (∃ rest, s.uopIn = [] ∧ s.host = .reset :: rest ∧ step s = .next (s.closeResponse.setHost rest).resetCore) ∨
    (∃ cmd keyIn blockIn rest i, s.uopIn = [] ∧ s.host = .command cmd keyIn blockIn :: rest ∧
      decodeCommand cmd keyIn blockIn = .ok i ∧ step s = exec i (s.closeResponse.setHost rest)) ∨
    (∃ cmd keyIn blockIn rest e, s.uopIn = [] ∧ s.host = .command cmd keyIn blockIn :: rest ∧
      decodeCommand cmd keyIn blockIn = .error e ∧ step s = .next (s.closeResponse.setHost rest).acceptReserved) ∨
    (∃ word rest i, s.uopIn = word :: rest ∧ decodeUop word = .ok i ∧
      step s = exec i (s.closeResponse.setUopIn rest)) ∨
    ∃ word rest e, s.uopIn = word :: rest ∧ decodeUop word = .error e ∧ step s = .refused (.reservedUop word) := by
  unfold step fetch
  rcases s.uopIn with _ | ⟨word, rest⟩
  · rcases s.host with _ | ⟨_ | _, rest⟩
    · exact .inl ⟨rfl, rfl, rfl⟩
    case cons.command cmd keyIn blockIn =>
      cases hd : decodeCommand cmd keyIn blockIn
      case ok i => exact .inr (.inr (.inl ⟨_, _, _, _, i, rfl, rfl, hd, by simp only [fetchHost, hd]⟩))
      case error e => exact .inr (.inr (.inr (.inl ⟨_, _, _, _, e, rfl, rfl, hd, by simp only [fetchHost, hd]⟩)))
    case cons.reset => exact .inr (.inl ⟨rest, rfl, rfl, rfl⟩)
  · cases hd : decodeUop word
    case ok i => exact .inr (.inr (.inr (.inr (.inl ⟨_, _, i, rfl, hd, by simp only [fetchUop, hd]⟩))))
    case error e => exact .inr (.inr (.inr (.inr (.inr ⟨_, _, e, rfl, hd, by simp only [fetchUop, hd]⟩))))

end Sys2Proof.Machine
end

