-- ==== Sys2Proof/Tests/Slice0.lean ====
section
/-!
SUPPORT. The model's own tests, with expected values from spec/95_test_vectors.md and spec/30_encoding.md, and one witness
for each statement with hypotheses.
-/
namespace Sys2Proof.Tests

open Machine

/-! ## Helpers -/

/-- The state after one instruction. -/
def after (i : Instr) (s : State) : State :=
  match exec i s with
  | .next t => t
  | .fault _ => s
  | .refused _ => s

/-- The state after one step, or the state itself where the step refuses. -/
def stepped (s : State) : State :=
  match step s with
  | .next t => t
  | .fault _ => s
  | .refused _ => s

/-- Why a step refuses. -/
def refusal (s : State) : Option Refusal :=
  match step s with
  | .next _ => none
  | .fault _ => none
  | .refused r => some r

/-- `W` of the 128-bit test key (95_test_vectors.md section 3.5). -/
def forward128 : List Word :=
  [0x00010203, 0x04050607, 0x08090a0b, 0x0c0d0e0f,
   0xd6aa74fd, 0xd2af72fa, 0xdaa678f1, 0xd6ab76fe,
   0xb692cf0b, 0x643dbdf1, 0xbe9bc500, 0x6830b3fe,
   0xb6ff744e, 0xd2c2c9bf, 0x6c590cbf, 0x0469bf41,
   0x47f7f7bc, 0x95353e03, 0xf96c32bc, 0xfd058dfd,
   0x3caaa3e8, 0xa99f9deb, 0x50f3af57, 0xadf622aa,
   0x5e390f7d, 0xf7a69296, 0xa7553dc1, 0x0aa31f6b,
   0x14f9701a, 0xe35fe28c, 0x440adf4d, 0x4ea9c026,
   0x47438735, 0xa41c65b9, 0xe016baf4, 0xaebf7ad2,
   0x549932d1, 0xf0855768, 0x1093ed9c, 0xbe2c974e,
   0x13111d7f, 0xe3944a17, 0xf307a78b, 0x4d2b30c5]

/-- `DW` of the 128-bit test key (95_test_vectors.md section 3.5). -/
def inverse128 : List Word :=
  [0x0a0f080d, 0x0e0b0c09, 0x02070005, 0x06030401,
   0x8c56dff0, 0x825dd3f9, 0x805ad3fc, 0x8659d7fd,
   0xa0db0299, 0x2286d160, 0xa2dc029c, 0x2485d561,
   0xc7c6e391, 0xe54032f1, 0x479c306d, 0x6319e50c,
   0xa8a2f504, 0x4de2c7f5, 0x0a7ef798, 0x69671294,
   0x2ec41027, 0x6326d7d2, 0x6958204a, 0x003f32de,
   0x72e3098d, 0x11c5de5f, 0x789dfe15, 0x78a2cccb,
   0x8d82fc74, 0x9c47222b, 0xe4dadc3e, 0x9c7810f5,
   0x1362a463, 0x8f258648, 0x6bff5a76, 0xf7874a83,
   0x13aa29be, 0x9c8faff6, 0xf770f580, 0x00f7bf03,
   0x62e7ac49, 0xfe6803bf, 0x0918f63f, 0x09ef493c]

/-- The state after the RESET and the KEYLOAD128 of program P1, before the next command. -/
def loaded128 : State := { State.reset with kv := true, W := forward128, DW := inverse128 }

/-- The test block of P1. -/
def plain : AesState := AesState.ofBus 0x00112233445566778899aabbccddeeff

/-- The state `S = 00102030405060708090a0b0c0d0e0f0` at the start of P5. -/
def round1 : State := { loaded128 with S := AesState.ofBus 0x00102030405060708090a0b0c0d0e0f0 }

/-- The core after a bounds violation. -/
def faulted : State := { loaded128 with fault := true }

/-- One command at the head of the host's events. -/
def presenting (cmd : BitVec 3) (s : State) : State := { s with host := [.command cmd 0 0] }

/-! ## Well-formedness -/

theorem test_wellFormed_smoke : wellFormed (.addRoundKey .F 64) = false ∧ wellFormed (.addRoundKey .I 63) = true := by
  decide

/-! ## Decoding: words written out from 30_encoding.md -/

/-- R82: class in bit 2, size or direction in bits 1 and 0; zero buses. -/
theorem test_command_words :
    decodeTableWord 3 0b000 = some (.keyload128 0 0 0 0) ∧
    decodeTableWord 3 0b001 = some (.keyload192 0 0 0 0 0 0) ∧
    decodeTableWord 3 0b010 = some (.keyload256 0 0 0 0 0 0 0 0) ∧
    decodeTableWord 3 0b100 = some (.cipher (AesState.ofBus 0)) ∧
    decodeTableWord 3 0b101 = some (.decipher (AesState.ofBus 0)) ∧
    decodeTableWord 3 0b011 = none ∧ decodeTableWord 3 0b110 = none ∧ decodeTableWord 3 0b111 = none := by
  decide

/-- R86, R87: `op` in bits 9 to 7, `sel` in bit 6, `base` in bits 5 to 0. -/
theorem test_uop_words :
    decodeUop 0b0000000000 = .ok .subBytes ∧ decodeUop 0b0010000000 = .ok .invSubBytes ∧
    decodeUop 0b0100000000 = .ok .shiftRows ∧ decodeUop 0b0110000000 = .ok .invShiftRows ∧
    decodeUop 0b1000000000 = .ok .mixColumns ∧ decodeUop 0b1010000000 = .ok .invMixColumns ∧
    decodeUop 0b1100000100 = .ok (.addRoundKey .F 4) ∧ decodeUop 0b1101101100 = .ok (.addRoundKey .I 44) := by
  decide

/-- R90: op 111, and a nonzero field of an operand-free operation. -/
theorem test_reserved_uop_words :
    decodeUop 0b1110000000 = .error (.reservedUop 0x380) ∧ decodeUop 0b0000000001 = .error (.reservedUop 0x001) ∧
    decodeUop 0b0111000000 = .error (.reservedUop 0x1c0) := by
  decide

/-- 95_test_vectors.md section 3.10: bits 127 to 0 of the key bus are ignored by KEYLOAD128. -/
theorem test_key_bus_packing :
    decodeCommand 0b000 0x000102030405060708090a0b0c0d0e0fffffffffffffffffffffffffffffffff 0 =
      .ok (.keyload128 0x00010203 0x04050607 0x08090a0b 0x0c0d0e0f) := by
  decide

/-- The word placed by the host's function is the next thing a step takes up. -/
theorem test_withFetchWord :
    (stepped (State.reset.withFetchWord 3 0b100)).rsp = some .errNoKey ∧
    (stepped (State.reset.withFetchWord 10 0x32c)).fault = true := by
  decide

/-! ## Field arithmetic (95_test_vectors.md sections 3.1 and 3.2) -/

theorem test_xtime : [0x00, 0x01, 0x40, 0x57, 0x7f, 0x80, 0x8d, 0xae, 0x1b, 0x36, 0xc0, 0xff].map xtime =
    [0x00, 0x02, 0x80, 0xae, 0xfe, 0x1b, 0x01, 0x47, 0x36, 0x6c, 0x9b, 0xe5] := by
  decide

theorem test_multipliers :
    [0x13, 0x53, 0xdb].map mul03 = [0x35, 0xf5, 0x76] ∧ [0x13, 0x53, 0xdb].map mul09 = [0x8b, 0xfd, 0x59] ∧
    [0x13, 0x53, 0xdb].map mul0B = [0xad, 0x5b, 0xf4] ∧ [0x13, 0x53, 0xdb].map mul0D = [0xc7, 0xaa, 0x18] ∧
    [0x13, 0x53, 0xdb].map mul0E = [0xf2, 0x5f, 0x6e] := by
  decide

theorem test_gfMul : gfMul 0x57 0x83 = 0xc1 ∧ gfMul 0x83 0x57 = 0xc1 ∧ gfMul 0x57 0x13 = 0xfe ∧
    gfMul 0x02 0x8d = 0x01 := by
  decide

theorem test_words : rotWord 0x12345678 = 0x34567812 ∧ subWord 0xcf4f3c09 = 0x8a84eb01 ∧
    subWord 0x53ca0152 = 0xed747c00 ∧ invMixWord 0xd6aa74fd = 0x8c56dff0 := by
  decide

/-! ## Key loads (95_test_vectors.md section 3.5, P1 to P4) -/

theorem test_keyload128_schedules :
    (after (.keyload128 0x00010203 0x04050607 0x08090a0b 0x0c0d0e0f) State.reset).W = forward128 ∧
    (after (.keyload128 0x00010203 0x04050607 0x08090a0b 0x0c0d0e0f) State.reset).DW = inverse128 := by
  decide +kernel

theorem test_keyload128_zero_key :
    ((after (.keyload128 0 0 0 0) State.reset).W.drop 40) = [0xb4ef5bcb, 0x3e92e211, 0x23e951cf, 0x6f8f188e] ∧
    ((after (.keyload128 0 0 0 0) State.reset).DW.drop 40) = [0x5ac5386c, 0xb1d9d3e4, 0xbdd86756, 0x985503b8] := by
  decide +kernel

theorem test_keyload192_last_words :
    ((after (.keyload192 0x00010203 0x04050607 0x08090a0b 0x0c0d0e0f 0x10111213 0x14151617) loaded128).W.drop 48) = [0xa4970a33, 0x1a78dc09, 0xc418c271, 0xe3a41d5d] ∧
    ((after (.keyload192 0x00010203 0x04050607 0x08090a0b 0x0c0d0e0f 0x10111213 0x14151617) loaded128).DW.drop 48) = [0x164aacfa, 0x938c2088, 0x45329d85, 0x873b77cc] := by
  decide +kernel

theorem test_keyload256_last_words :
    ((after (.keyload256 0x00010203 0x04050607 0x08090a0b 0x0c0d0e0f 0x10111213 0x14151617 0x18191a1b 0x1c1d1e1f) loaded128).W.drop 56) = [0x24fc79cc, 0xbf0979e9, 0x371ac23c, 0x6d68de36] ∧
    ((after (.keyload256 0x00010203 0x04050607 0x08090a0b 0x0c0d0e0f 0x10111213 0x14151617 0x18191a1b 0x1c1d1e1f) loaded128).DW.drop 56) = [0xc8054fef, 0xf0497ae5, 0x8538cda3, 0x59b82b27] := by
  decide +kernel

theorem test_keyload_refused_in_fault : (after (.keyload256 0 0 0 0 0 0 0 0) faulted).rsp = some .errFault := by decide

/-! ## Block commands (P1, section 3.9) -/

theorem test_cipher128 : (after (.cipher plain) loaded128).rsp =
    some (.okBlock 0x69c4e0d86a7b0430d8cdb78070b4c55a) := by
  decide +kernel

theorem test_cipher_refused : (after (.cipher plain) State.reset).rsp = some .errNoKey ∧
    (after (.cipher plain) faulted).rsp = some .errFault := by
  decide

theorem test_decipher128 : (after (.decipher (AesState.ofBus 0x69c4e0d86a7b0430d8cdb78070b4c55a)) loaded128).rsp =
    some (.okBlock 0x00112233445566778899aabbccddeeff) := by
  decide +kernel

theorem test_decipher_refused : (after (.decipher plain) State.reset).rsp = some .errNoKey ∧
    (after (.decipher plain) faulted).rsp = some .errFault := by
  decide

theorem test_reserved_command_responses :
    (stepped (presenting 0b110 State.reset)).rsp = some .errBadCmd ∧
    (stepped (presenting 0b111 loaded128)).rsp = some .errBadCmd ∧
    (stepped (presenting 0b011 faulted)).rsp = some .errFault := by
  decide

/-- After the fault only RESET helps (95_test_vectors.md section 3.9). -/
theorem test_reset_leaves_the_fault_state :
    (stepped { faulted with host := [.reset] }).fault = false ∧ (stepped { faulted with host := [.reset] }).kv = false := by
  decide

/-! ## Micro-operations (P5, P6, sections 3.3 and 3.8) -/

theorem test_sub_bytes : (after .subBytes round1).S = AesState.ofBus 0x63cab7040953d051cd60e0e7ba70e18c := by decide

theorem test_shift_rows : (after .shiftRows { round1 with S := AesState.ofBus 0x63cab7040953d051cd60e0e7ba70e18c }).S =
    AesState.ofBus 0x6353e08c0960e104cd70b751bacad0e7 := by
  decide

theorem test_mix_columns : (after .mixColumns { round1 with S := AesState.ofBus 0x6353e08c0960e104cd70b751bacad0e7 }).S =
    AesState.ofBus 0x5f72641557f5bc92f7be3b291db9f91a := by
  decide

theorem test_add_round_key_forward :
    (after (.addRoundKey .F 4) { round1 with S := AesState.ofBus 0x5f72641557f5bc92f7be3b291db9f91a }).S =
      AesState.ofBus 0x89d810e8855ace682d1843d8cb128fe4 := by
  decide

theorem test_inv_sub_bytes :
    (after .invSubBytes { round1 with S := AesState.ofBus 0x7ad5fda789ef4e272bca100b3d9ff59f }).S =
      AesState.ofBus 0xbdb52189f261b63d0b107c9e8b6e776e := by
  decide

theorem test_inv_shift_rows :
    (after .invShiftRows { round1 with S := AesState.ofBus 0xbdb52189f261b63d0b107c9e8b6e776e }).S =
      AesState.ofBus 0xbd6e7c3df2b5779e0b61216e8b10b689 := by
  decide

theorem test_inv_mix_columns :
    (after .invMixColumns { round1 with S := AesState.ofBus 0xbd6e7c3df2b5779e0b61216e8b10b689 }).S =
      AesState.ofBus 0x4773b91ff72f354361cb018ea1e6cf2c := by
  decide

theorem test_add_round_key_inverse :
    (after (.addRoundKey .I 36) { round1 with S := AesState.ofBus 0x4773b91ff72f354361cb018ea1e6cf2c }).S =
      AesState.ofBus 0x54d990a16ba09ab596bbf40ea111702f := by
  decide

/-- P6, and `0x329` of section 3.9: 44 + 4 and 41 + 4 exceed 44; 40 + 4 does not. -/
theorem test_bounds_violation :
    (stepped { round1 with uopIn := [0x32c] }).fault = true ∧ (stepped { round1 with uopIn := [0x32c] }).S = round1.S ∧
    (stepped { round1 with uopIn := [0x329] }).rsp = some .errFault ∧
    (stepped { round1 with uopIn := [0x328] }).fault = false := by
  decide

theorem test_reserved_uop_refused : refusal { round1 with uopIn := [0x380] } = some (.reservedUop 0x380) := by decide

/-! ## Witnesses: for each statement with hypotheses, a state and operands that meet them -/

/-- DecodeOfEncodeIsIdentity. -/
theorem witness_decodeOfEncode : wellFormed (.addRoundKey .I 63) = true := by decide

/-- EncodeOfDecodedUopIsIdentity. -/
theorem witness_encodeOfDecodedUop : decodeUop 0x37f = .ok (.addRoundKey .I 63) := by decide

/-- EncodeOfDecodedCommandKeepsItsWord. -/
theorem witness_encodeOfDecodedCommand : ∃ i, decodeCommand 0b001 0 0 = .ok i := ⟨_, rfl⟩

/-- ReservedUopWordsAreRefused, both clauses, at the words where they meet. -/
theorem witness_reservedUopWords :
    isReservedUop 0x380 ∧ isReservedUop 0x2ff ∧ isReservedUop 0x001 ∧ ¬ isReservedUop 0x37f ∧ ¬ isReservedUop 0x300 ∧
    ¬ isReservedUop 0x000 ∧ ({ State.reset with uopIn := [0x380] } : State).uopIn = 0x380 :: [] := by
  decide

/-- UnusedBusBitsAreIgnored: two different buses with the same used bits, for each key size. -/
theorem witness_unusedBusBits :
    (0 : BitVec 256) ≠ 0xffffffffffffffff ∧
    (0 : BitVec 256).extractLsb' 128 128 = (0xffffffffffffffff : BitVec 256).extractLsb' 128 128 ∧
    (0 : BitVec 256).extractLsb' 64 192 = (0xffffffffffffffff : BitVec 256).extractLsb' 64 192 := by
  decide

/-- StepRunsTheDecodedCommand. -/
theorem witness_stepRunsCommand :
    (presenting 0b100 loaded128).uopIn = [] ∧ (presenting 0b100 loaded128).host = .command 0b100 0 0 :: [] ∧
    decode (.command 0b100 0 0) = .ok (.cipher (AesState.ofBus 0)) := by
  decide

/-- StepRunsTheDecodedUop. -/
theorem witness_stepRunsUop :
    ({ round1 with uopIn := [0x36c] } : State).uopIn = 0x36c :: [] ∧ decode (.uop 0x36c) = .ok (.addRoundKey .I 44) := by
  decide

/-- AcceptanceOrder: each clause, the last for a key load and for a block command. -/
theorem witness_acceptanceOrder :
    (∀ s ∈ [State.reset, loaded128, faulted], (presenting 0b100 s).uopIn = [] ∧
      (presenting 0b100 s).host = .command 0b100 0 0 :: []) ∧
    (presenting 0b011 faulted).fault = true ∧
    ((presenting 0b110 State.reset).fault = false ∧ isReservedCommand 0b110) ∧
    ((presenting 0b101 State.reset).fault = false ∧ isBlockCommand 0b101 ∧ (presenting 0b101 State.reset).kv = false) ∧
    ((presenting 0b010 State.reset).fault = false ∧ ¬ isReservedCommand 0b010 ∧
      (isBlockCommand 0b010 → (presenting 0b010 State.reset).kv = true)) ∧
    ((presenting 0b101 loaded128).fault = false ∧ ¬ isReservedCommand 0b101 ∧
      (isBlockCommand 0b101 → (presenting 0b101 loaded128).kv = true)) := by
  decide

/-- ReservedCommandIsRefused, its three words, with and without a key. -/
theorem witness_reservedCommand : ∀ cmd ∈ [(0b011 : BitVec 3), 0b110, 0b111], ∀ s ∈ [State.reset, loaded128],
    isReservedCommand cmd ∧ (presenting cmd s).uopIn = [] ∧ (presenting cmd s).fault = false ∧
    (presenting cmd s).host = .command cmd 0 0 :: [] := by
  decide

/-- BlockCommandWithoutKeyIsRefused. -/
theorem witness_blockCommandWithoutKey : State.reset.fault = false ∧ State.reset.kv = false := by decide

/-- BoundsViolationEntersTheFaultState and the last clause of AddRoundKeyEffect, at the first base out of bounds; the
earlier clause of AddRoundKeyEffect at the last base in bounds. -/
theorem witness_bounds : loaded128.fault = false ∧ 41 + 4 > loaded128.wlen ∧ 40 + 4 ≤ loaded128.wlen ∧ 63 < 64 := by decide

/-- UopInFaultedCorePerformsNothing. -/
theorem witness_faulted : faulted.fault = true := by decide

/-- ResetEventClearsTheFlags, from the fault state. -/
theorem witness_resetEvent : ({ faulted with host := [.reset] } : State).uopIn = [] ∧
    ({ faulted with host := [.reset] } : State).host = .reset :: [] := by
  decide

/-- IdleStepKeepsTheState. -/
theorem witness_idle : loaded128.uopIn = [] ∧ loaded128.host = [] := by decide

/-- EveryCommandAnswers, with a reserved word in the fault state. -/
theorem witness_everyCommandAnswers :
    (presenting 0b111 faulted).uopIn = [] ∧ (presenting 0b111 faulted).host = .command 0b111 0 0 :: [] := by
  decide

/-- FieldMultiplicationLaws: a nonzero constant. SubstitutionTables: a byte and its field inverse. -/
theorem witness_fieldInverse : (0x02 : Byte) ≠ 0 ∧ gfMul 0x8d 0x02 = 0x01 := by decide

/-- RoundConstants: the last index. -/
theorem witness_roundConstant : 9 < 10 := by decide

/-- KeyWindowRule, both clauses where they meet. -/
theorem witness_keyWindow : Memory.wf loaded128 = true ∧ 41 + 4 > loaded128.wlen ∧ 40 + 4 ≤ loaded128.wlen := by decide

/-- SubBytesEffect, InvSubBytesEffect, ShiftRowsEffect, InvShiftRowsEffect, MixColumnsEffect, InvMixColumnsEffect,
Keyload128Effect, Keyload192Effect, Keyload256Effect; the column numbers of the two row shifts. -/
theorem witness_noFault : round1.fault = false ∧ State.reset.fault = false ∧
    (0 : Fin 4).val = ((3 : Fin 4).val + (1 : Fin 4).val) % 4 ∧
    (2 : Fin 4).val = ((1 : Fin 4).val + 4 - (3 : Fin 4).val) % 4 := by
  decide

/-- ScheduleIsDeterminedByTheKey: the printed schedule of the 128-bit test key meets the equations. -/
theorem witness_schedule128 : [0x00010203, 0x04050607, 0x08090a0b, 0x0c0d0e0f].length = KeySize.k128.nk ∧
    IsForwardSchedule .k128 [0x00010203, 0x04050607, 0x08090a0b, 0x0c0d0e0f] forward128 := by
  have hmul : ∀ i < 44, 4 ≤ i → i % 4 = 0 → scheduleWord forward128 i =
      scheduleWord forward128 (i - 4) ^^^ (subWord (rotWord (scheduleWord forward128 (i - 1))) ^^^ rcon (i / 4 - 1)) := by
    decide +kernel
  have helse : ∀ i < 44, 4 ≤ i → i % 4 ≠ 0 →
      scheduleWord forward128 i = scheduleWord forward128 (i - 4) ^^^ scheduleWord forward128 (i - 1) := by
    decide +kernel
  have hseed : ∀ j < 4, scheduleWord forward128 j =
      scheduleWord [0x00010203, 0x04050607, 0x08090a0b, 0x0c0d0e0f] j := by
    decide
  exact ⟨rfl, rfl, hseed, fun i h₁ h₂ => hmul i h₂ h₁, fun i _ _ h => (nomatch h), fun i h₁ h₂ hm _ => helse i h₂ h₁ hm⟩

/-- ScheduleIsDeterminedByTheKey: every key of any size has a schedule. -/
theorem witness_schedule (k : KeySize) (key : List Word) (h : key.length = k.nk) : ∃ W, IsForwardSchedule k key W := by
  obtain ⟨W, hW, -⟩ := State.performKeyload_eq h State.reset
  exact ⟨W, hW⟩

/-- KeyloadForgetsTheOldKey: two states with different keys. -/
theorem witness_keyloadForgets : isKeyload (.keyload192 0 0 0 0 0 0) = true ∧ loaded128.fault = false ∧
    State.reset.fault = false ∧ loaded128.W ≠ State.reset.W := by
  decide

/-- SequencerCounters: each loop at its last word and at its end, and a micro-operation of each program. -/
theorem witness_sequencerCounters :
    loaded128.ksize.nk + 39 < loaded128.wlen ∧ loaded128.ksize.nk + 40 ≥ loaded128.wlen ∧
    43 < loaded128.wlen ∧ 44 ≥ loaded128.wlen ∧ loaded128.fault = false ∧
    (10, Uop.addRoundKey .F 40) ∈ cipherProgram loaded128.nr ∧
    (10, Uop.addRoundKey .F 40) ∈ decipherProgram loaded128.nr := by
  decide

/-- SequencerCounters: a counter that stands at its largest value, 59, in each phase (10_state.md R23). -/
theorem witness_sequencerCounters_largest :
    let s : State := { State.reset with ksize := .k256 }
    (keyexpStep^[51] (s.seedForward.setSeq (.keyexp s.ksize.nk))).seq = .keyexp 59 ∧
    (invkeyexpStep^[59] (s.clearInverse.setSeq (.invkeyexp 0))).seq = .invkeyexp 59 := by
  decide +kernel

/-- CipherEffect, DecipherEffect, BlockCommandIsItsUopProgram. -/
theorem witness_key : loaded128.fault = false ∧ loaded128.kv = true := by decide

/-- ProgramWindowsAreAlignedAndInBounds: the last window of CIPHER, and a forward and an inverse window of DECIPHER. -/
theorem witness_programWindows :
    (14, Uop.addRoundKey .F 56) ∈ cipherProgram KeySize.k256.nr ∧
    (0, Uop.addRoundKey .F 0) ∈ decipherProgram KeySize.k256.nr ∧
    (13, Uop.addRoundKey .I 52) ∈ decipherProgram KeySize.k256.nr := by
  decide

/-- The invariant at a state with a valid key: WordCount, StepKeepsCoreInv, RoundTrip. -/
theorem witness_coreInv : CoreInv loaded128 where
  memory := by decide
  idle := rfl
  noKey := rfl
  forward := fun _ => witness_schedule128.2
  inverse := fun _ => (by decide +kernel : inverse128 = forward128.map invMixWord)

/-- RoundTrip: a later state with the same key. -/
theorem witness_roundTrip : CoreInv loaded128 ∧ loaded128.kv = true ∧ loaded128.fault = false ∧ round1.kv = true ∧
    round1.fault = false ∧ round1.ksize = loaded128.ksize ∧ round1.W = loaded128.W ∧ round1.DW = loaded128.DW ∧
    round1 ≠ loaded128 :=
  ⟨witness_coreInv, by decide⟩

/-- BlocksAreIndependent: two different states with the same key. -/
theorem witness_blocksAreIndependent : loaded128.kv = true ∧ round1.kv = true ∧ loaded128.fault = false ∧
    round1.fault = false ∧ loaded128.ksize = round1.ksize ∧ loaded128.W = round1.W ∧ loaded128.DW = round1.DW ∧
    loaded128 ≠ round1 := by
  decide

/-- `loaded128` with the inverse words of round 0 replaced. -/
def deadWords : State := { loaded128 with DW := [0, 0, 0, 0] ++ inverse128.drop 4 }

/-- DeadScheduleWords, both clauses: states that differ in words no command reads. -/
theorem witness_deadScheduleWords :
    loaded128.kv = true ∧ deadWords.kv = true ∧ loaded128.fault = false ∧ deadWords.fault = false ∧
    loaded128.ksize = deadWords.ksize ∧ loaded128.DW ≠ deadWords.DW ∧
    (∀ i < 44, scheduleWord loaded128.W i = scheduleWord deadWords.W i) ∧
    (∀ i < 44, i < 4 ∨ 4 * 10 ≤ i → scheduleWord loaded128.W i = scheduleWord deadWords.W i) ∧
    (∀ i < 44, 4 ≤ i → i < 4 * 10 → scheduleWord loaded128.DW i = scheduleWord deadWords.DW i) ∧
    loaded128.wlen = 44 ∧ loaded128.nr = 10 := by
  refine ⟨rfl, rfl, rfl, rfl, rfl, by decide, fun _ _ => rfl, fun _ _ _ => rfl, ?_, rfl, rfl⟩
  decide +kernel

/-- OnlyKeyloadsWriteTheRetainedState: an instruction that is no key load, and one that sets `fault`. -/
theorem witness_onlyKeyloads : isKeyload (.cipher plain) = false ∧ isKeyload (.addRoundKey .I 41) = false ∧
    loaded128.fault = false ∧ (after (.addRoundKey .I 41) loaded128).fault = true ∧ 41 + 4 > loaded128.wlen := by
  decide

/-- StepKeepsCoreInv: a step that answers a next state. -/
theorem witness_stepKeepsCoreInv : CoreInv loaded128 ∧ step loaded128 = .next loaded128 := ⟨witness_coreInv, rfl⟩

/-- StepKeepsTheCoreFaultFree, with a command waiting. -/
theorem witness_hostDriven : HostDriven (presenting 0b100 loaded128) := ⟨rfl, rfl⟩

/-- UnspecifiedStateIsNeverSeen: two different states that look the same to the host, without and with a key. -/
theorem witness_sameToHost :
    SameToHost State.reset { State.reset with ksize := .k256, W := [], DW := [] } ∧ SameToHost loaded128 round1 :=
  ⟨⟨rfl, rfl, fun h => (nomatch h), fun h => (nomatch h), fun h => (nomatch h), rfl, rfl, rfl, rfl, rfl, rfl⟩,
    ⟨rfl, rfl, fun _ => rfl, fun _ => rfl, fun _ => rfl, rfl, rfl, rfl, rfl, rfl, rfl⟩⟩

end Sys2Proof.Tests
end

section
/-!
PROOF. The round constants of R31 and the range of the index that reads them (R163).
-/
namespace Sys2Proof

/-- The literal list of R31, read entry by entry. -/
theorem map_rcon_range : (List.range 10).map rcon = rconTable := rfl

/-- The literal list and the formula of R31 agree for all ten entries. -/
theorem rcon_eq_wordBe_xtime_iterate : ∀ j < 10, rcon j = wordBe (xtime^[j] 0x01) 0 0 0 := by
  decide

/-- `Nk` is at least 4. -/
theorem KeySize.four_le_nk (k : KeySize) : 4 ≤ k.nk := Nat.le_add_right 4 _

/-- `WLEN` is at most `11·Nk`: it is `4·Nk + 28`, and 28 is at most `7·Nk`. It is exactly `11·Nk` for 128-bit keys. -/
theorem KeySize.wlen_le_nk_mul_eleven (k : KeySize) : k.wlen ≤ k.nk * 11 := by
  have hnk := k.four_le_nk
  simp only [KeySize.wlen, KeySize.nr]
  omega

/-- The index of R163 stays within the table of ten, whether or not `i` is a multiple of `Nk`;
128-bit keys reach 9, at `i = 40`. -/
theorem KeySize.div_nk_pred_lt_ten {k : KeySize} {i : Nat} (hi : i < k.wlen) : i / k.nk - 1 < 10 := by
  have hdiv : i / k.nk < 11 := Nat.div_lt_of_lt_mul (hi.trans_le k.wlen_le_nk_mul_eleven)
  omega

/-- Settles O27: the list and the formula entry by entry, the index by the bound `WLEN ≤ 11·Nk`. -/
theorem roundConstants : Obligations.RoundConstants :=
  ⟨map_rcon_range, rcon_eq_wordBe_xtime_iterate, fun _ _ hi _ => KeySize.div_nk_pred_lt_ten hi⟩

end Sys2Proof
end

section
/-!
PROOF. `xtime` in its two forms, the shift-and-add loop of `gfMul` in terms of `xtime`, and the multipliers by 03 and 09
(R112 to R115).
-/
namespace Sys2Proof

/-! ## xtime (R112) -/

/-- The pre-shift top bit that R112 asks for is bit 7. -/
theorem xtime_eq_ite_getLsbD (b : Byte) : xtime b = if b.getLsbD 7 then (b <<< 1) ^^^ 0x1B else b <<< 1 := by
  rw [xtime, BitVec.msb_eq_getLsbD_last]

/-- `b[6:0]` followed by a zero bit is the left shift of `b`. -/
theorem extractLsb'_append_zero (b : Byte) : b.extractLsb' 0 7 ++ (0 : BitVec 1) = b <<< 1 :=
  (BitVec.shiftLeft_eq_concat_of_lt (x := b) (n := 1) (by decide)).symm

theorem xtime_eq_append_xor (b : Byte) :
    xtime b = (b.extractLsb' 0 7 ++ (0 : BitVec 1)) ^^^ (if b.getLsbD 7 then 0x1B else 0x00) := by
  rw [xtime_eq_ite_getLsbD, extractLsb'_append_zero]
  split
  · rfl
  · exact BitVec.xor_zero.symm

/-- Settles O19: the top bit is bit 7, and the shift is `b[6:0]` with a zero bit appended. -/
theorem xtimeRule : Obligations.XtimeRule :=
  ⟨xtime_eq_ite_getLsbD, xtime_eq_append_xor, by decide⟩

/-! ## The field product as a sum of iterated `xtime` (R113) -/

/-- The accumulator of R113 after the bits of `k` below `m`: the sum of `xtime` applied `n` times to `b` over the bits
`n` of `k` that are set. -/
def xtimeSum (k b : Byte) (m : Nat) : Byte :=
  (List.range m).foldl (fun acc n => if k.getLsbD n then acc ^^^ xtime^[n] b else acc) 0

theorem xtimeSum_succ (k b : Byte) (m : Nat) :
    xtimeSum k b (m + 1) = if k.getLsbD m then xtimeSum k b m ^^^ xtime^[m] b else xtimeSum k b m := by
  simp [xtimeSum, List.range_succ]

/-- The loop's invariant: before bit `m` it holds the sum so far, and `b` doubled `m` times. -/
theorem foldl_gfMulStep_range (k b : Byte) (m : Nat) :
    (List.range m).foldl (fun ap n => gfMulStep k ap.1 ap.2 n) (0, b) = (xtimeSum k b m, xtime^[m] b) := by
  induction m with
  | zero => rfl
  | succ m ih =>
    rw [List.range_succ, List.foldl_append, ih, xtimeSum_succ, Function.iterate_succ_apply']
    rfl

theorem gfMul_eq_xtimeSum (k b : Byte) : gfMul k b = xtimeSum k b 8 := by
  rw [gfMul, foldl_gfMulStep_range]

/-! ## The multipliers by 03 and 09 (R114, R115) -/

/-- 03 has the bits 0 and 1. -/
theorem mul03_eq_gfMul (b : Byte) : mul03 b = gfMul 0x03 b := by
  have hsum : gfMul 0x03 b = b ^^^ xtime b := by simp [gfMul_eq_xtimeSum, xtimeSum, List.range_succ]
  rw [hsum, mul03, BitVec.xor_comm]

/-- 09 has the bits 0 and 3. -/
theorem mul09_eq_gfMul (b : Byte) : mul09 b = gfMul 0x09 b := by
  have hsum : gfMul 0x09 b = b ^^^ xtime (xtime (xtime b)) := by
    simp [gfMul_eq_xtimeSum, xtimeSum, List.range_succ]
  rw [hsum, mul09, BitVec.xor_comm]

/-- Settles O20: the identities are the definitions, and the product's sum runs over the set bits of 03 and 09. -/
theorem multipliersByThreeAndNine : Obligations.MultipliersByThreeAndNine :=
  ⟨fun b => ⟨rfl, mul03_eq_gfMul b⟩, fun b => ⟨rfl, mul09_eq_gfMul b⟩, by decide⟩

end Sys2Proof
end

section
/-!
PROOF. `rotWord` on the bytes of a word and as a concatenation of bit fields (R119).
-/
namespace Sys2Proof

@[simp] theorem rotWord_wordBe (x0 x1 x2 x3 : Byte) : rotWord (wordBe x0 x1 x2 x3) = wordBe x1 x2 x3 x0 := by
  simp [rotWord]

/-- The three low bytes, side by side, are `w[23:0]`. -/
theorem b1_append_b2_append_b3 (w : Word) : b1 w ++ b2 w ++ b3 w = w.extractLsb' 0 24 := by
  have hhigh : b1 w ++ b2 w = w.extractLsb' 8 16 := BitVec.extractLsb'_append_extractLsb'_eq_extractLsb' rfl
  rw [hhigh]
  exact BitVec.extractLsb'_append_extractLsb'_eq_extractLsb' rfl

theorem rotWord_eq_append (w : Word) : rotWord w = w.extractLsb' 0 24 ++ w.extractLsb' 24 8 := by
  rw [← b1_append_b2_append_b3]
  rfl

theorem rotWord_four_times (w : Word) : rotWord (rotWord (rotWord (rotWord w))) = w := by
  rw [← wordBe_bytes w]
  simp only [rotWord_wordBe]

/-- Settles O24: on a word's bytes `rotWord` is the rotation of the list of four. -/
theorem rotWordRule : Obligations.RotWordRule :=
  ⟨fun _ => rfl, rotWord_eq_append, rotWord_four_times, fun x => rotWord_wordBe x x x x, by decide⟩

end Sys2Proof
end

section
/-!
PROOF. The inverse laws of the transforms (R138): substitution from the tables, row shifts on column numbers, column
mixing from the fourth power of `mixCol`, round-key addition column by column.
-/
namespace Sys2Proof

/-! ## The bytes of a transformed state -/

@[simp] theorem AesState.at_subBytes (S : AesState) (r c : Fin 4) : S.subBytes.at r c = sbox (S.at r c) :=
  AesState.at_ofFn _ r c

@[simp] theorem AesState.at_invSubBytes (S : AesState) (r c : Fin 4) : S.invSubBytes.at r c = invSbox (S.at r c) :=
  AesState.at_ofFn _ r c

@[simp] theorem AesState.at_shiftRows (S : AesState) (r c : Fin 4) : S.shiftRows.at r c = S.at r (c + r) :=
  AesState.at_ofFn _ r c

@[simp] theorem AesState.at_invShiftRows (S : AesState) (r c : Fin 4) : S.invShiftRows.at r c = S.at r (c - r) :=
  AesState.at_ofFn _ r c

@[simp] theorem AesState.col_mixColumns (S : AesState) (c : Fin 4) : S.mixColumns.col c = mixCol (S.col c) :=
  AesState.col_mapCols mixCol S c

/-! ## Substitution -/

/-- The printed tables, compared at all 256 bytes (R30). -/
@[simp] theorem invSbox_sbox : ∀ x : Byte, invSbox (sbox x) = x := by decide

/-- On a finite set a left inverse is a right inverse. -/
@[simp] theorem sbox_invSbox (y : Byte) : sbox (invSbox y) = y := by
  have hleft : Function.LeftInverse invSbox sbox := invSbox_sbox
  have hsurj : Function.Surjective sbox := Finite.surjective_of_injective hleft.injective
  exact hleft.rightInverse_of_surjective hsurj y

@[simp] theorem AesState.invSubBytes_subBytes (S : AesState) : S.subBytes.invSubBytes = S :=
  AesState.ext_at fun r c => by simp

@[simp] theorem AesState.subBytes_invSubBytes (S : AesState) : S.invSubBytes.subBytes = S :=
  AesState.ext_at fun r c => by simp

/-! ## Row shifts -/

@[simp] theorem AesState.invShiftRows_shiftRows (S : AesState) : S.shiftRows.invShiftRows = S :=
  AesState.ext_at fun r c => by simp

@[simp] theorem AesState.shiftRows_invShiftRows (S : AesState) : S.invShiftRows.shiftRows = S :=
  AesState.ext_at fun r c => by simp

/-! ## Column mixing -/

/-- Mixing twice is the circulant (05, 00, 04, 00): the other coefficients cancel. -/
theorem mixCol_mixCol (c : Column) : mixCol (mixCol c) = {
    r0 := c.r0 ^^^ xtime (xtime (c.r0 ^^^ c.r2))
    r1 := c.r1 ^^^ xtime (xtime (c.r1 ^^^ c.r3))
    r2 := c.r2 ^^^ xtime (xtime (c.r2 ^^^ c.r0))
    r3 := c.r3 ^^^ xtime (xtime (c.r3 ^^^ c.r1)) } := by
  simp only [mixCol, mul03, xtime_xor]
  ac_nf
  simp

/-- The mixing matrix has order four: its square adds the same term to rows 0 and 2, and the same to rows 1 and 3. -/
theorem mixCol_four_times (c : Column) : mixCol (mixCol (mixCol (mixCol c))) = c := by
  simp only [mixCol_mixCol, xtime_xor]
  ac_nf
  simp

/-- The inverse coefficients are the third power of the forward ones. -/
theorem invMixCol_eq_mixCol_three_times (c : Column) : invMixCol c = mixCol (mixCol (mixCol c)) := by
  rw [mixCol_mixCol]
  simp only [invMixCol, mixCol, mul0E, mul0B, mul0D, mul09, mul03, xtime_xor]
  ac_nf
  simp

@[simp] theorem invMixCol_mixCol (c : Column) : invMixCol (mixCol c) = c := by
  rw [invMixCol_eq_mixCol_three_times, mixCol_four_times]

@[simp] theorem mixCol_invMixCol (c : Column) : mixCol (invMixCol c) = c := by
  rw [invMixCol_eq_mixCol_three_times, mixCol_four_times]

@[simp] theorem AesState.invMixColumns_mixColumns (S : AesState) : S.mixColumns.invMixColumns = S := by
  simp [AesState.mixColumns, AesState.invMixColumns, AesState.mapCols]

@[simp] theorem AesState.mixColumns_invMixColumns (S : AesState) : S.invMixColumns.mixColumns = S := by
  simp [AesState.mixColumns, AesState.invMixColumns, AesState.mapCols]

/-! ## Round-key addition -/

@[simp] theorem AesState.addRoundKey_addRoundKey_same (S : AesState) (k : Machine.Window) :
    (S.addRoundKey k).addRoundKey k = S := by
  simp [AesState.addRoundKey]

/-- Settles O37: each law on bytes, column numbers or columns, carried to the state. -/
theorem inverseLaws : Obligations.InverseLaws :=
  ⟨fun S => ⟨S.invSubBytes_subBytes, S.subBytes_invSubBytes⟩,
    fun S => ⟨S.invShiftRows_shiftRows, S.shiftRows_invShiftRows⟩,
    fun S => ⟨S.invMixColumns_mixColumns, S.mixColumns_invMixColumns⟩,
    AesState.addRoundKey_addRoundKey_same⟩

end Sys2Proof
end

section
/-!
PROOF. The effect of a micro-operation through `exec`, and of the substitutions and row shifts on the state
(R130 to R133).
-/
namespace Sys2Proof

open Machine

/-- A micro-operation that completes writes `S` alone (R140). -/
theorem Machine.exec_toInstr_of_ok {s : State} (hf : s.fault = false) {u : Uop} (h : Uop.InBounds s.wlen u) :
    exec u.toInstr s = .next { s with S := Uop.onS s.W s.DW u s.S } := by
  rw [exec_toInstr, State.runUop_eq hf h]
  rfl

/-! ## Substitution (R130, R131) -/

/-- Settles O30: positions do not move, so the flat index reads the same row and column on both sides. -/
theorem subBytesEffect : Obligations.SubBytesEffect :=
  ⟨rfl, fun s hf => ⟨s.S.subBytes, exec_toInstr_of_ok (u := .subBytes) hf trivial,
    fun _ => AesState.at_subBytes s.S _ _⟩, by decide⟩

/-- Settles O31: as for SUB_BYTES, with the inverse laws of R138. -/
theorem invSubBytesEffect : Obligations.InvSubBytesEffect :=
  ⟨rfl, fun s hf => ⟨s.S.invSubBytes, exec_toInstr_of_ok (u := .invSubBytes) hf trivial,
    fun _ => AesState.at_invSubBytes s.S _ _⟩, by decide, by decide,
    fun S => ⟨S.invSubBytes_subBytes, S.subBytes_invSubBytes⟩, by decide⟩

/-! ## Row shifts (R132, R133) -/

/-- By flat index the left shift multiplies by 5: from `r + 4·c` to `r + 4·(c + r)`, mod 16. -/
theorem AesState.flat_shiftRows (S : AesState) (i : Fin 16) : S.shiftRows.flat i = S.flat (5 * i) := by
  have hrow : ∀ i : Fin 16, i.val % 4 = (5 * i).val % 4 := by decide
  have hcol : ∀ i : Fin 16, (i.val / 4 + i.val % 4) % 4 = (5 * i).val / 4 := by decide
  rw [AesState.flat, AesState.at_shiftRows, AesState.flat]
  congr 1
  · exact Fin.ext (hrow i)
  · exact Fin.ext (hcol i)

/-- By flat index the right shift multiplies by 13, the inverse of 5 mod 16. -/
theorem AesState.flat_invShiftRows (S : AesState) (i : Fin 16) : S.invShiftRows.flat i = S.flat (13 * i) := by
  have hrow : ∀ i : Fin 16, i.val % 4 = (13 * i).val % 4 := by decide
  have hcol : ∀ i : Fin 16, (4 - i.val % 4 + i.val / 4) % 4 = (13 * i).val / 4 := by decide
  rw [AesState.flat, AesState.at_invShiftRows, AesState.flat]
  congr 1
  · exact Fin.ext (hrow i)
  · exact Fin.ext (hcol i)

/-- A state whose flat index is multiplied by `k` lists the bytes of the old one at the multiples of `k`. -/
theorem AesState.map_flat_eq {S T : AesState} {k : Fin 16} (h : ∀ i, T.flat i = S.flat (k * i)) :
    (List.finRange 16).map T.flat = ((List.finRange 16).map (k * ·)).map S.flat := by
  rw [List.map_map]
  exact List.map_congr_left fun i _ => h i

/-- Shifting a row four times by its own number moves each byte by a multiple of 4. -/
theorem AesState.shiftRows_four_times (S : AesState) : S.shiftRows.shiftRows.shiftRows.shiftRows = S := by
  have hcol : ∀ r c : Fin 4, c + r + r + r + r = c := by decide
  exact AesState.ext_at fun r c => by simp only [AesState.at_shiftRows, hcol]

theorem AesState.at_two_shiftRows_shiftRows (S : AesState) (c : Fin 4) :
    S.shiftRows.shiftRows.at 2 c = S.at 2 c := by
  have hcol : ∀ c : Fin 4, c + 2 + 2 = c := by decide
  simp only [AesState.at_shiftRows, hcol]

/-- Settles O32: the column numbers are added mod 4 as the rule writes it, and the index list is the multiples of 5. -/
theorem shiftRowsEffect : Obligations.ShiftRowsEffect := by
  refine ⟨rfl, fun s hf => ⟨s.S.shiftRows, exec_toInstr_of_ok (u := .shiftRows) hf trivial, ?_,
    AesState.map_flat_eq s.S.flat_shiftRows⟩, fun S => ⟨?_, S.at_two_shiftRows_shiftRows, S.shiftRows_four_times⟩,
    fun _ => rfl, by decide⟩
  · intro r c d hd
    have hcol : d = c + r := Fin.ext (hd.trans (Fin.val_add c r).symm)
    rw [hcol, AesState.at_shiftRows]
  · intro c
    rw [AesState.at_shiftRows, add_zero]

/-- Settles O33: the column numbers are subtracted mod 4, on row 2 that is adding 2, and the index list is the multiples
of 13. -/
theorem invShiftRowsEffect : Obligations.InvShiftRowsEffect := by
  refine ⟨rfl, fun s hf => ⟨s.S.invShiftRows, exec_toInstr_of_ok (u := .invShiftRows) hf trivial, ?_,
    AesState.map_flat_eq s.S.flat_invShiftRows⟩, fun S => ⟨?_, ?_, S.invShiftRows_shiftRows⟩, by decide⟩
  · intro r c d hd
    have hcol : d = c - r := Fin.ext (by rw [Fin.val_sub]; omega)
    rw [hcol, AesState.at_invShiftRows]
  · intro c
    rw [AesState.at_invShiftRows, sub_zero]
  · intro c
    have hcol : c - 2 = c + 2 := (by decide : ∀ c : Fin 4, c - 2 = c + 2) c
    rw [AesState.at_invShiftRows, AesState.at_shiftRows, hcol]

end Sys2Proof
end

section
/-!
PROOF. MIX_COLUMNS over the field product (R134) and ADD_ROUND_KEY over the words of its window (R136).
-/
namespace Sys2Proof

open Machine

/-! ## MIX_COLUMNS (R134) -/

/-- 02 has the bit 1 alone. -/
theorem xtime_eq_gfMul (b : Byte) : xtime b = gfMul 0x02 b := by
  simp [gfMul_eq_xtimeSum, xtimeSum, List.range_succ]

/-- The four formulas of R134. -/
theorem mixCol_eq_gfMul (c : Column) : mixCol c = {
    r0 := gfMul 2 c.r0 ^^^ gfMul 3 c.r1 ^^^ c.r2 ^^^ c.r3
    r1 := c.r0 ^^^ gfMul 2 c.r1 ^^^ gfMul 3 c.r2 ^^^ c.r3
    r2 := c.r0 ^^^ c.r1 ^^^ gfMul 2 c.r2 ^^^ gfMul 3 c.r3
    r3 := gfMul 3 c.r0 ^^^ c.r1 ^^^ c.r2 ^^^ gfMul 2 c.r3 } := by
  simp only [mixCol, xtime_eq_gfMul, mul03_eq_gfMul]

/-- The coefficients 02, 03, 01, 01 sum to 01. -/
theorem mixCol_equal_bytes (x : Byte) : mixCol ⟨x, x, x, x⟩ = ⟨x, x, x, x⟩ := by
  simp only [mixCol, mul03]
  ac_nf
  simp

theorem mixCol_xor (a b : Column) : mixCol (a.xor b) = (mixCol a).xor (mixCol b) := by
  simp only [mixCol, Column.xor, xtime_xor, mul03_xor]
  ac_rfl

/-- Settles O34: column `c` of the new state is `mixCol` of the old one, and its rows are the four formulas. -/
theorem mixColumnsEffect : Obligations.MixColumnsEffect := by
  refine ⟨rfl, fun s hf => ⟨s.S.mixColumns, exec_toInstr_of_ok (u := .mixColumns) hf trivial, fun c => ?_⟩,
    mixCol_equal_bytes, mixCol_xor, by decide⟩
  have hcol := (s.S.col_mixColumns c).trans (mixCol_eq_gfMul _)
  exact ⟨congrArg Column.r0 hcol, congrArg Column.r1 hcol, congrArg Column.r2 hcol, congrArg Column.r3 hcol⟩

/-! ## ADD_ROUND_KEY (R136) -/

theorem Machine.exec_addRoundKey_of_le {s : State} {base : Nat} (hf : s.fault = false) (h : base + 4 ≤ s.wlen)
    (sel : Sel) : exec (.addRoundKey sel base) s =
      .next { s with S := s.S.addRoundKey (windowAt (s.schedule sel) base) } :=
  congrArg Host.Outcome.next (State.addRoundKey_of_le hf h sel)

theorem Machine.exec_addRoundKey_of_gt {s : State} {base : Nat} (hf : s.fault = false) (h : base + 4 > s.wlen)
    (sel : Sel) : exec (.addRoundKey sel base) s = .next s.enterFault :=
  congrArg Host.Outcome.next (State.addRoundKey_of_gt hf h sel)

/-- Word `base + c` of the schedule goes to column `c`. -/
theorem AesState.col_addRoundKey_windowAt (S : AesState) (X : List Word) (base : Nat) (c : Fin 4) :
    (S.addRoundKey (windowAt X base)).col c = (S.col c).xor (Column.ofWord (scheduleWord X (base + c.val))) := by
  match c with
  | 0 | 1 | 2 | 3 => rfl

/-- The zero word is the zero column. -/
theorem Column.ofWord_zero : Column.ofWord 0 = ⟨0, 0, 0, 0⟩ := by decide

theorem Column.xor_zero (c : Column) : c.xor ⟨0, 0, 0, 0⟩ = c := by simp [Column.xor]

theorem Column.zero_xor (c : Column) : Column.xor ⟨0, 0, 0, 0⟩ c = c := by simp [Column.xor]

theorem AesState.addRoundKey_zero (S : AesState) : S.addRoundKey ⟨0, 0, 0, 0⟩ = S := by
  simp only [AesState.addRoundKey, Column.ofWord_zero, Column.xor_zero]

/-- On the zero state the result is the key bytes themselves. -/
theorem AesState.toBus_addRoundKey_ofBus_zero (k : Window) :
    ((AesState.ofBus 0).addRoundKey k).toBus = k.k0 ++ k.k1 ++ k.k2 ++ k.k3 := by
  have hzero : AesState.ofBus 0 = ⟨⟨0, 0, 0, 0⟩, ⟨0, 0, 0, 0⟩, ⟨0, 0, 0, 0⟩, ⟨0, 0, 0, 0⟩⟩ := by decide
  simp only [hzero, AesState.addRoundKey, AesState.toBus, Column.zero_xor, Column.toWord_ofWord]

/-- The words of ADD_ROUND_KEY at the 64 values of the `base` field, for each schedule (R87). -/
theorem encode_addRoundKey : ∀ base < 64,
    encode (.addRoundKey .F base) = .uop (0x300 + BitVec.ofNat 10 base) ∧
    encode (.addRoundKey .I base) = .uop (0x340 + BitVec.ofNat 10 base) := by
  decide

/-- Settles O36: in bounds column `c` takes word `base + c` of the schedule, byte by byte; out of bounds the core enters
the fault state. -/
theorem addRoundKeyEffect : Obligations.AddRoundKeyEffect := by
  refine ⟨encode_addRoundKey, fun s sel base hf => ⟨fun h => ?_, fun h => ?_⟩,
    AesState.addRoundKey_addRoundKey_same, AesState.addRoundKey_zero, AesState.toBus_addRoundKey_ofBus_zero, by decide⟩
  · refine ⟨_, exec_addRoundKey_of_le hf h sel, fun c => ?_⟩
    have hcol := s.S.col_addRoundKey_windowAt (s.schedule sel) base c
    exact ⟨congrArg Column.r0 hcol, congrArg Column.r1 hcol, congrArg Column.r2 hcol, congrArg Column.r3 hcol⟩
  · exact ⟨s.enterFault, exec_addRoundKey_of_gt hf h sel, rfl, rfl⟩

end Sys2Proof
end

section
/-!
PROOF. The word count (R165), and the schedule words by index: one lookup for each index below the length, and one
forward schedule for each key (R160).
-/
namespace Sys2Proof

open Machine

/-! ## The word count (R165) -/

/-- Settles O28: the counts unfold to each other, and the lengths are the canonical form of the invariant. -/
theorem wordCount : Obligations.WordCount :=
  ⟨fun _ => ⟨rfl, rfl, rfl, rfl⟩, rfl, rfl, rfl, fun _ h => Memory.wf_iff.mp h.memory⟩

/-! ## Schedule words by index -/

theorem getElem?_eq_some_scheduleWord {X : List Word} {i : Nat} (h : i < X.length) :
    X[i]? = some (scheduleWord X i) := by
  rw [scheduleWord, List.getElem?_eq_getElem h, List.getD_eq_getElem X _ h]

/-- A schedule is determined by its length and its words. -/
theorem ext_scheduleWord {X Y : List Word} (hlen : X.length = Y.length)
    (h : ∀ i < X.length, scheduleWord X i = scheduleWord Y i) : X = Y := by
  refine List.ext_getElem? fun i => ?_
  rcases Nat.lt_or_ge i X.length with hi | hi
  · rw [getElem?_eq_some_scheduleWord hi, getElem?_eq_some_scheduleWord (hlen ▸ hi), h i hi]
  · rw [List.getElem?_eq_none hi, List.getElem?_eq_none (hlen ▸ hi)]

/-! ## One forward schedule for each key (R160) -/

theorem KeySize.nk_eq_eight_iff {k : KeySize} : k.nk = 8 ↔ k = .k256 := by
  cases k <;> decide

/-- The equations say that every word after the key is the expansion of the words before it. -/
theorem IsForwardSchedule.scheduleWord_eq_expandWord {k : KeySize} {key W : List Word} (h : IsForwardSchedule k key W)
    {i : Nat} (hnk : k.nk ≤ i) (hlen : i < k.wlen) : scheduleWord W i = expandWord k W i := by
  unfold expandWord
  by_cases hmul : i % k.nk = 0
  · simpa only [if_pos hmul] using h.atMultiple i hnk hlen hmul
  · by_cases hfour : k.nk = 8 ∧ i % k.nk = 4
    · simpa only [if_neg hmul, if_pos hfour] using h.atFour i hnk hlen (KeySize.nk_eq_eight_iff.mp hfour.1) hfour.2
    · simpa only [if_neg hmul, if_neg hfour] using
        h.elsewhere i hnk hlen hmul (by rwa [← KeySize.nk_eq_eight_iff])

/-- The expansion at `i` reads the words `i − 1` and `i − Nk` alone. -/
theorem expandWord_congr {k : KeySize} {W W' : List Word} {i : Nat}
    (hprev : scheduleWord W (i - 1) = scheduleWord W' (i - 1))
    (hback : scheduleWord W (i - k.nk) = scheduleWord W' (i - k.nk)) : expandWord k W i = expandWord k W' i := by
  simp only [expandWord, hprev, hback]

/-- The equations have one solution: by strong induction on the index, the key words first. -/
theorem IsForwardSchedule.unique {k : KeySize} {key W W' : List Word} (h : IsForwardSchedule k key W)
    (h' : IsForwardSchedule k key W') : W = W' := by
  have hwords : ∀ i < k.wlen, scheduleWord W i = scheduleWord W' i := by
    intro i
    induction i using Nat.strong_induction_on with
    | _ i ih =>
      intro hi
      have hpos := nk_pos k
      rcases Nat.lt_or_ge i k.nk with hkey | hnk
      · rw [h.seed i hkey, h'.seed i hkey]
      · rw [h.scheduleWord_eq_expandWord hnk hi, h'.scheduleWord_eq_expandWord hnk hi]
        exact expandWord_congr (ih _ (by omega) (by omega)) (ih _ (by omega) (by omega))
  exact ext_scheduleWord (h.length.trans h'.length.symm) (h.length ▸ hwords)

end Sys2Proof
end

section
/-!
PROOF. The windowed read (R166): four words of a schedule in its canonical form, or a bounds violation.
-/
namespace Sys2Proof

open Machine

/-- In bounds the window holds the four words from `base` on. -/
theorem getElem?_windowAt {X : List Word} {base : Nat} (h : base + 4 ≤ X.length) :
    X[base]? = some (windowAt X base).k0 ∧ X[base + 1]? = some (windowAt X base).k1 ∧
      X[base + 2]? = some (windowAt X base).k2 ∧ X[base + 3]? = some (windowAt X base).k3 :=
  ⟨getElem?_eq_some_scheduleWord (by omega), getElem?_eq_some_scheduleWord (by omega),
    getElem?_eq_some_scheduleWord (by omega), getElem?_eq_some_scheduleWord (by omega)⟩

/-- The last legal base is the first word of the last round key. -/
theorem KeySize.wlen_sub_four (k : KeySize) : k.wlen - 4 = 4 * k.nr := by
  rw [KeySize.wlen]
  omega

theorem Machine.State.keyWindow_congr {s t : State} (hk : s.ksize = t.ksize) (hW : s.W = t.W) (hDW : s.DW = t.DW)
    (sel : Sel) (base : Nat) : s.keyWindow sel base = t.keyWindow sel base := by
  have hsched : s.schedule sel = t.schedule sel := by
    cases sel
    case F => exact hW
    case I => exact hDW
  rw [State.keyWindow, State.keyWindow, State.wlen, State.wlen, hk, hsched]

/-- After a key load every window depends on the key alone: no two states load different schedules of it. -/
theorem Machine.State.keyWindow_performKeyload {k : KeySize} {key : List Word} (hkey : key.length = k.nk)
    (s t : State) (sel : Sel) (base : Nat) :
    (s.performKeyload k key).keyWindow sel base = (t.performKeyload k key).keyWindow sel base := by
  obtain ⟨W, hW, hs⟩ := State.performKeyload_eq hkey s
  obtain ⟨W', hW', ht⟩ := State.performKeyload_eq hkey t
  obtain rfl := hW.unique hW'
  rw [hs, ht]
  exact State.keyWindow_congr rfl rfl rfl sel base

/-- The key of R166's example. -/
def windowExampleKey : List Word := [0x00010203, 0x04050607, 0x08090a0b, 0x0c0d0e0f]

/-- The example of R166, computed from the reset state and carried to any other. -/
theorem keyWindow_performKeyload_windowExampleKey (s : State) :
    let t := s.performKeyload .k128 windowExampleKey
    t.keyWindow .F 4 = some ⟨0xd6aa74fd, 0xd2af72fa, 0xdaa678f1, 0xd6ab76fe⟩ ∧
      t.keyWindow .I 36 = some ⟨0x13aa29be, 0x9c8faff6, 0xf770f580, 0x00f7bf03⟩ ∧
      (t.keyWindow .F 40).isSome = true ∧ t.keyWindow .F 41 = none := by
  have hlen : windowExampleKey.length = KeySize.k128.nk := rfl
  simp only [State.keyWindow_performKeyload hlen s State.reset]
  decide +kernel

/-- Settles O29: in the canonical form a base in bounds of `WLEN` is in bounds of both lists; the example's key load is
accepted, since the core is not in the fault state. -/
theorem keyWindowRule : Obligations.KeyWindowRule := by
  refine ⟨fun s base hwf => ⟨fun h => ⟨State.keyWindow_of_gt h .F, State.keyWindow_of_gt h .I⟩, fun h => ?_⟩,
    KeySize.wlen_sub_four, rfl, rfl, rfl, fun s hf => ?_⟩
  · obtain ⟨hW, hDW⟩ := Memory.wf_iff.mp hwf
    obtain ⟨f0, f1, f2, f3⟩ := getElem?_windowAt (h.trans_eq hW.symm)
    obtain ⟨i0, i1, i2, i3⟩ := getElem?_windowAt (h.trans_eq hDW.symm)
    exact ⟨windowAt s.W base, windowAt s.DW base, State.keyWindow_of_le h .F, f0, f1, f2, f3,
      State.keyWindow_of_le h .I, i0, i1, i2, i3⟩
  · exact ⟨s.performKeyload .k128 windowExampleKey, congrArg Host.Outcome.next (State.accept_keyload hf _),
      keyWindow_performKeyload_windowExampleKey s⟩

end Sys2Proof
end

section
/-!
PROOF. Acceptance (R180): what a command word is decoded to and how it is accepted, said once, and the order of the
checks.
-/
namespace Sys2Proof.Machine

/-! ## The step that takes up a command -/

theorem step_of_decodeCommand_ok {s : State} {cmd : BitVec 3} {keyIn : BitVec 256} {blockIn : BitVec 128}
    {rest : List HostEvent} {i : Instr} (hu : s.uopIn = []) (hh : s.host = .command cmd keyIn blockIn :: rest)
    (hd : decodeCommand cmd keyIn blockIn = .ok i) : step s = exec i (s.closeResponse.setHost rest) := by
  simp only [step, fetch, hu, hh, fetchHost, hd]

theorem step_of_decodeCommand_error {s : State} {cmd : BitVec 3} {keyIn : BitVec 256} {blockIn : BitVec 128}
    {rest : List HostEvent} {e : Reject} (hu : s.uopIn = []) (hh : s.host = .command cmd keyIn blockIn :: rest)
    (hd : decodeCommand cmd keyIn blockIn = .error e) :
    step s = .next (s.closeResponse.setHost rest).acceptReserved := by
  simp only [step, fetch, hu, hh, fetchHost, hd]

/-! ## The three classes of command words -/

/-- What a command word is: reserved, a key load of a key of the right length, or a block command whose program's
windows are all in bounds; the last two with the acceptance they go through. -/
inductive CommandCase (cmd : BitVec 3) (keyIn : BitVec 256) (blockIn : BitVec 128) : Prop where
  | reserved (hr : isReservedCommand cmd) (hb : ¬ isBlockCommand cmd)
      (hd : decodeCommand cmd keyIn blockIn = .error (.reservedCommand cmd))
  | keyload (hr : ¬ isReservedCommand cmd) (hb : ¬ isBlockCommand cmd) (i : Instr) (k : KeySize) (key : List Word)
      (hkey : key.length = k.nk) (hd : decodeCommand cmd keyIn blockIn = .ok i)
      (he : ∀ s, exec i s = .next (s.accept .keyload (State.performKeyload k key)))
  | block (hr : ¬ isReservedCommand cmd) (hb : isBlockCommand cmd) (i : Instr) (phase : Nat → Sequencer)
      (program : Nat → List (Nat × Uop)) (block : AesState)
      (hin : ∀ nr, ∀ x ∈ program nr, Uop.InBounds (4 * (nr + 1)) x.2)
      (hd : decodeCommand cmd keyIn blockIn = .ok i)
      (he : ∀ s, exec i s = .next (s.accept .block (State.performBlock phase (program s.nr) block)))

/-- The eight command words, one by one (R82, R89). -/
theorem command_cases (cmd : BitVec 3) (keyIn : BitVec 256) (blockIn : BitVec 128) : CommandCase cmd keyIn blockIn := by
  have hcmd : ∀ c : BitVec 3, c = 0b000 ∨ c = 0b001 ∨ c = 0b010 ∨ c = 0b011 ∨ c = 0b100 ∨ c = 0b101 ∨ c = 0b110 ∨
      c = 0b111 := by decide
  rcases hcmd cmd with rfl | rfl | rfl | rfl | rfl | rfl | rfl | rfl
  · exact .keyload (by decide) (by decide) _ .k128 _ rfl rfl fun _ => rfl
  · exact .keyload (by decide) (by decide) _ .k192 _ rfl rfl fun _ => rfl
  · exact .keyload (by decide) (by decide) _ .k256 _ rfl rfl fun _ => rfl
  · exact .reserved (by decide) (by decide) rfl
  · exact .block (by decide) (by decide) _ .enc cipherProgram _ cipherProgram_inBounds rfl fun _ => rfl
  · exact .block (by decide) (by decide) _ .dec decipherProgram _ decipherProgram_inBounds rfl fun _ => rfl
  · exact .reserved (by decide) (by decide) rfl
  · exact .reserved (by decide) (by decide) rfl

theorem State.performKeyload_rsp {k : KeySize} {key : List Word} (hkey : key.length = k.nk) (s : State) :
    (s.performKeyload k key).rsp = some .ok := by
  obtain ⟨W, _, he⟩ := State.performKeyload_eq hkey s
  rw [he]

theorem State.performBlock_rsp {s : State} (phase : Nat → Sequencer) {program : List (Nat × Uop)}
    (hf : s.fault = false) (hin : ∀ x ∈ program, Uop.InBounds s.wlen x.2) (block : AesState) :
    ∃ out, (s.performBlock phase program block).rsp = some (.okBlock out) :=
  ⟨_, congrArg State.rsp (State.performBlock_eq phase hf hin block)⟩

end Sys2Proof.Machine

namespace Sys2Proof

open Machine

/-! ## The order of the checks (R180) -/

/-- Settles O10: by the class of the command word; each class meets the checks of its own acceptance. -/
theorem acceptanceOrder : Obligations.AcceptanceOrder := by
  intro s cmd keyIn blockIn rest hu hh
  cases command_cases cmd keyIn blockIn with
  | reserved hr hb hd =>
    have hstep : step s = .next { s with host := rest, rsp := some (if s.fault then .errFault else .errBadCmd) } :=
      (step_of_decodeCommand_error hu hh hd).trans (congrArg _ (State.acceptReserved_eq _))
    refine ⟨fun hf => ?_, fun hf _ => ?_, fun _ hb' => absurd hb' hb, fun _ hr' => absurd hr hr'⟩
    · simpa only [hf, if_true] using hstep
    · simpa only [hf, Bool.false_eq_true, if_false] using hstep
  | keyload hr hb i k key hkey hd he =>
    have hstep := (step_of_decodeCommand_ok hu hh hd).trans (he _)
    refine ⟨fun hf => ?_, fun _ hr' => absurd hr' hr, fun _ hb' => absurd hb' hb, fun hf _ _ => ?_⟩
    · exact hstep.trans (congrArg _ (State.accept_of_fault (s := s.closeResponse.setHost rest) hf _ _))
    · refine ⟨i, _, hd, hstep, he _, ?_⟩
      rw [if_neg hb, State.accept_keyload (s := s.closeResponse.setHost rest) hf]
      exact State.performKeyload_rsp hkey _
  | block hr hb i phase program block hin hd he =>
    have hstep := (step_of_decodeCommand_ok hu hh hd).trans (he _)
    refine ⟨fun hf => ?_, fun _ hr' => absurd hr' hr, fun hf _ hk => ?_, fun hf _ hk => ?_⟩
    · exact hstep.trans (congrArg _ (State.accept_of_fault (s := s.closeResponse.setHost rest) hf _ _))
    · exact hstep.trans (congrArg _ (State.accept_block_of_noKey (s := s.closeResponse.setHost rest) hf hk _))
    · refine ⟨i, _, hd, hstep, he _, ?_⟩
      rw [if_pos hb, State.accept_block (s := s.closeResponse.setHost rest) hf (hk hb)]
      exact State.performBlock_rsp (s := s.closeResponse.setHost rest) phase hf (hin _) block

end Sys2Proof
end

section
/-!
PROOF. A block command answers the composition of its rounds (R184, R185), so its response is a function of the round
count, the schedules and the block (R192).
-/
namespace Sys2Proof

open Machine

/-! ## The programs as rounds -/

theorem foldl_onS_forwardRounds (W DW : List Word) (n : Nat) (S : AesState) :
    ((List.range' 1 n).flatMap fun r =>
      [(r, Uop.subBytes), (r, .shiftRows), (r, .mixColumns), (r, .addRoundKey .F (4 * r))]).foldl
        (fun S x => Uop.onS W DW x.2 S) S = forwardRounds W n S := by
  induction n with
  | zero => rfl
  | succ n ih =>
    rw [List.range'_1_concat, List.flatMap_append, List.foldl_append, ih, Nat.add_comm 1 n]
    rfl

theorem foldl_onS_cipherProgram (W DW : List Word) (nr : Nat) (block : AesState) :
    (cipherProgram nr).foldl (fun S x => Uop.onS W DW x.2 S) block = cipherBlock W nr block := by
  rw [cipherProgram, List.foldl_append, List.foldl_append, foldl_onS_forwardRounds]
  rfl

/-- The middle rounds run downwards, so the last index of the list is the first round. -/
theorem foldl_onS_inverseRounds (W DW : List Word) (n : Nat) (S : AesState) :
    ((List.range' 1 n).reverse.flatMap fun r =>
      [(r, Uop.invSubBytes), (r, .invShiftRows), (r, .invMixColumns), (r, .addRoundKey .I (4 * r))]).foldl
        (fun S x => Uop.onS W DW x.2 S) S = inverseRounds DW n S := by
  induction n generalizing S with
  | zero => rfl
  | succ n ih =>
    rw [List.range'_1_concat, List.reverse_append, List.flatMap_append, List.foldl_append, ih, Nat.add_comm 1 n]
    rfl

theorem foldl_onS_decipherProgram (W DW : List Word) (nr : Nat) (block : AesState) :
    (decipherProgram nr).foldl (fun S x => Uop.onS W DW x.2 S) block = decipherBlock W DW nr block := by
  rw [decipherProgram, List.foldl_append, List.foldl_append, foldl_onS_inverseRounds]
  rfl

/-! ## What a block command answers -/

theorem Machine.exec_cipher_of_ok {s : State} (hf : s.fault = false) (hk : s.kv = true) (block : AesState) :
    exec (.cipher block) s = .next { s with
      rsp := some (.okBlock (cipherBlock s.W s.nr block).toBus), seq := .idle
      S := Config.freeState s.draws, draws := s.draws + 1 } := by
  have hperform := State.performBlock_eq .enc hf (cipherProgram_inBounds s.nr) block
  rw [foldl_onS_cipherProgram] at hperform
  exact congrArg _ ((State.accept_block hf hk _).trans hperform)

theorem Machine.exec_decipher_of_ok {s : State} (hf : s.fault = false) (hk : s.kv = true) (block : AesState) :
    exec (.decipher block) s = .next { s with
      rsp := some (.okBlock (decipherBlock s.W s.DW s.nr block).toBus), seq := .idle
      S := Config.freeState s.draws, draws := s.draws + 1 } := by
  have hperform := State.performBlock_eq .dec hf (decipherProgram_inBounds s.nr) block
  rw [foldl_onS_decipherProgram] at hperform
  exact congrArg _ ((State.accept_block hf hk _).trans hperform)

/-- Settles O52: the two answers name the round count, the schedules and the block alone. -/
theorem blocksAreIndependent : Obligations.BlocksAreIndependent := by
  intro s t block hks hkt hfs hft hsize hW hDW
  refine ⟨⟨_, _, exec_cipher_of_ok hfs hks block, exec_cipher_of_ok hft hkt block, ?_⟩,
    ⟨_, _, exec_decipher_of_ok hfs hks block, exec_decipher_of_ok hft hkt block, ?_⟩⟩
  · simp only [State.nr, hsize, hW]
  · simp only [State.nr, hsize, hW, hDW]

end Sys2Proof
end

section
/-!
PROOF. A block survives the bus (R53), the inverse schedule makes each inverse round undo its forward one (R137, R164),
and so DECIPHER and CIPHER undo each other under one key (R186).
-/
namespace Sys2Proof

open Machine

/-! ## A block on the bus and back (R53, R84) -/

/-- A field of a field is a field of the whole. -/
theorem extractLsb'_extractLsb'_of_add_le {w start start' len len' : Nat} (x : BitVec w) (h : start' + len' ≤ len) :
    (x.extractLsb' start len).extractLsb' start' len' = x.extractLsb' (start + start') len' := by
  ext i hi
  simp only [BitVec.getElem_extractLsb', BitVec.getLsbD_extractLsb', show start' + i < len by omega, decide_true,
    Bool.true_and, Nat.add_assoc]

/-- The columns of a loaded block are the four words of the bus, the first most significant. -/
theorem AesState.ofBus_eq_ofWord (bus : BitVec 128) : AesState.ofBus bus =
    ⟨Column.ofWord (bus.extractLsb' 96 32), Column.ofWord (bus.extractLsb' 64 32),
      Column.ofWord (bus.extractLsb' 32 32), Column.ofWord (bus.extractLsb' 0 32)⟩ := by
  simp (disch := decide) only [Column.ofWord, b0, b1, b2, b3, extractLsb'_extractLsb'_of_add_le]
  rfl

@[simp] theorem AesState.ofBus_toBus (S : AesState) : AesState.ofBus S.toBus = S := by
  simp (disch := decide) only [AesState.ofBus_eq_ofWord, AesState.toBus, BitVec.extractLsb'_append_eq_of_le,
    BitVec.extractLsb'_append_eq_right, BitVec.extractLsb'_eq_self, Nat.reduceSub, Column.ofWord_toWord]

/-! ## Commuting operations (R130, R137) -/

theorem AesState.shiftRows_subBytes (S : AesState) : S.subBytes.shiftRows = S.shiftRows.subBytes :=
  AesState.ext_at fun r c => by simp

theorem AesState.invShiftRows_invSubBytes (S : AesState) : S.invSubBytes.invShiftRows = S.invShiftRows.invSubBytes :=
  AesState.ext_at fun r c => by simp

theorem invMixCol_xor (a b : Column) : invMixCol (a.xor b) = (invMixCol a).xor (invMixCol b) := by
  simp only [invMixCol, Column.xor, mul0E_xor, mul0B_xor, mul0D_xor, mul09_xor, Column.mk.injEq]
  refine ⟨?_, ?_, ?_, ?_⟩ <;> ac_rfl

/-- The window of transformed words. -/
def Machine.Window.invMix (k : Window) : Window := ⟨invMixWord k.k0, invMixWord k.k1, invMixWord k.k2, invMixWord k.k3⟩

/-- The inverse column mix is linear, so it moves through the addition of a round key that is transformed with it. -/
theorem AesState.addRoundKey_invMix (S : AesState) (k : Window) :
    S.invMixColumns.addRoundKey k.invMix = (S.addRoundKey k).invMixColumns := by
  simp [AesState.addRoundKey, AesState.invMixColumns, AesState.mapCols, Window.invMix, invMixWord, invMixCol_xor]

/-! ## One round -/

/-- The last round of DECIPHER, without the key, undoes the last round of CIPHER, without the key. -/
@[simp] theorem AesState.invShiftRows_invSubBytes_shiftRows_subBytes (S : AesState) :
    S.subBytes.shiftRows.invSubBytes.invShiftRows = S := by
  simp [AesState.invShiftRows_invSubBytes]

@[simp] theorem AesState.shiftRows_subBytes_invShiftRows_invSubBytes (S : AesState) :
    S.invSubBytes.invShiftRows.subBytes.shiftRows = S := by
  simp [AesState.shiftRows_subBytes]

/-- A middle round of DECIPHER with the transformed key undoes the round of CIPHER before it; the substitution and row
shift of the next round stand outside. -/
theorem roundInv_roundFwd (S : AesState) (k : Window) :
    roundInv (roundFwd S k).subBytes.shiftRows k.invMix = S.subBytes.shiftRows := by
  simp [roundInv, roundFwd, AesState.addRoundKey_invMix]

theorem roundFwd_roundInv (S : AesState) (k : Window) :
    roundFwd (roundInv S k.invMix).invSubBytes.invShiftRows k = S.invSubBytes.invShiftRows := by
  simp [roundInv, roundFwd, AesState.addRoundKey_invMix]

/-! ## The middle rounds -/

theorem scheduleWord_map_invMixWord {W : List Word} {i : Nat} (h : i < W.length) :
    scheduleWord (W.map invMixWord) i = invMixWord (scheduleWord W i) := by
  simp [scheduleWord, List.getD_eq_getElem?_getD, List.getElem?_eq_getElem h]

/-- In the inverse schedule the round key of every round within the schedule is the transformed one (R164). -/
theorem roundKey_map_invMixWord {W : List Word} {r : Nat} (h : 4 * r + 4 ≤ W.length) :
    roundKey (W.map invMixWord) r = (roundKey W r).invMix := by
  simp (disch := omega) only [roundKey, windowAt, Window.invMix, scheduleWord_map_invMixWord]

theorem inverseRounds_forwardRounds {W : List Word} {n : Nat} (h : 4 * n + 4 ≤ W.length) (S : AesState) :
    inverseRounds (W.map invMixWord) n (forwardRounds W n S).subBytes.shiftRows = S.subBytes.shiftRows := by
  induction n with
  | zero => rfl
  | succ n ih => rw [inverseRounds, forwardRounds, roundKey_map_invMixWord h, roundInv_roundFwd, ih (by omega)]

theorem forwardRounds_inverseRounds {W : List Word} {n : Nat} (h : 4 * n + 4 ≤ W.length) (S : AesState) :
    forwardRounds W n (inverseRounds (W.map invMixWord) n S).invSubBytes.invShiftRows =
      S.invSubBytes.invShiftRows := by
  induction n generalizing S with
  | zero => rfl
  | succ n ih => rw [inverseRounds, forwardRounds, roundKey_map_invMixWord h, ih (by omega), roundFwd_roundInv]

/-! ## The block commands (R186) -/

theorem decipherBlock_cipherBlock {W : List Word} {nr : Nat} (h : 4 * nr + 4 ≤ W.length) (block : AesState) :
    decipherBlock W (W.map invMixWord) nr (cipherBlock W nr block) = block := by
  have hrounds := inverseRounds_forwardRounds (W := W) (n := nr - 1) (by omega) (block.addRoundKey (roundKey W 0))
  simp [decipherBlock, cipherBlock, finalInv, finalFwd, hrounds]

theorem cipherBlock_decipherBlock {W : List Word} {nr : Nat} (h : 4 * nr + 4 ≤ W.length) (block : AesState) :
    cipherBlock W nr (decipherBlock W (W.map invMixWord) nr block) = block := by
  have hrounds := forwardRounds_inverseRounds (W := W) (n := nr - 1) (by omega) (block.addRoundKey (roundKey W nr))
  simp [decipherBlock, cipherBlock, finalInv, finalFwd, hrounds]

/-- Settles O51: both answers go over the bus unchanged, and with the inverse schedule of the invariant the two
compositions of rounds undo each other. -/
theorem roundTrip : Obligations.RoundTrip := by
  intro s t block hinv hks hfs hkt hft hsize hW hDW
  have hinverse : s.DW = s.W.map invMixWord := hinv.inverse hks
  have hlen : 4 * s.nr + 4 ≤ s.W.length := (hinv.forward hks).length.ge
  have hnr : t.nr = s.nr := congrArg KeySize.nr hsize
  refine ⟨⟨_, _, exec_cipher_of_ok hfs hks block, rfl, _, exec_decipher_of_ok hft hkt _, ?_⟩,
    ⟨_, _, exec_decipher_of_ok hfs hks block, rfl, _, exec_cipher_of_ok hft hkt _, ?_⟩⟩
  · simp only [AesState.ofBus_toBus, hW, hDW, hinverse, hnr, decipherBlock_cipherBlock hlen]
  · simp only [AesState.ofBus_toBus, hW, hinverse, hnr, cipherBlock_decipherBlock hlen]

end Sys2Proof
end

section
/-!
PROOF. The refusals: a reserved command word (R201), and a block command without a key (R202).
-/
namespace Sys2Proof

open Machine

/-! ## ERR_BADCMD (R201) -/

/-- No other class of command words is reserved (R89). -/
theorem decodeCommand_of_isReservedCommand {cmd : BitVec 3} (h : isReservedCommand cmd) (keyIn : BitVec 256)
    (blockIn : BitVec 128) : decodeCommand cmd keyIn blockIn = .error (.reservedCommand cmd) := by
  cases command_cases cmd keyIn blockIn with
  | reserved _ _ hd => exact hd
  | keyload hr => exact absurd h hr
  | block hr => exact absurd h hr

/-- Settles O11: the word decodes to no instruction, and of the acceptance checks in their order the second applies. -/
theorem reservedCommandIsRefused : Obligations.ReservedCommandIsRefused := by
  refine ⟨rfl, fun s cmd keyIn blockIn rest hr hu hf hh => ⟨decodeCommand_of_isReservedCommand hr keyIn blockIn, ?_⟩⟩
  obtain ⟨-, hreserved, -, -⟩ := acceptanceOrder s cmd keyIn blockIn rest hu hh
  exact hreserved hf hr

/-! ## ERR_NOKEY (R202) -/

theorem Machine.exec_cipher_of_noKey {s : State} (hf : s.fault = false) (hk : s.kv = false) (block : AesState) :
    exec (.cipher block) s = .next (s.respond .errNoKey) :=
  congrArg Host.Outcome.next (State.accept_block_of_noKey hf hk _)

theorem Machine.exec_decipher_of_noKey {s : State} (hf : s.fault = false) (hk : s.kv = false) (block : AesState) :
    exec (.decipher block) s = .next (s.respond .errNoKey) :=
  congrArg Host.Outcome.next (State.accept_block_of_noKey hf hk _)

/-- Settles O12: both block commands go through the one acceptance of their class, which stops at the missing key. -/
theorem blockCommandWithoutKeyIsRefused : Obligations.BlockCommandWithoutKeyIsRefused :=
  ⟨rfl, fun _ block hf hk => ⟨exec_cipher_of_noKey hf hk block, exec_decipher_of_noKey hf hk block⟩⟩

end Sys2Proof
end

section
/-!
PROOF. Micro-operation words: their three fields, what each word decodes to, and the reserved words (R86, R87, R90).
-/
namespace Sys2Proof

open Machine

/-! ## The fields of a micro-operation word (R86) -/

theorem extractLsb'_op_uopWord (op : BitVec 3) (sel : BitVec 1) (base : BitVec 6) :
    (uopWord op sel base).extractLsb' 7 3 = op := by
  simp (disch := decide) only [uopWord, BitVec.extractLsb'_append_eq_of_le, Nat.reduceSub, BitVec.extractLsb'_eq_self]

theorem extractLsb'_sel_uopWord (op : BitVec 3) (sel : BitVec 1) (base : BitVec 6) :
    (uopWord op sel base).extractLsb' 6 1 = sel := by
  simp (disch := decide) only [uopWord, BitVec.extractLsb'_append_eq_of_le, BitVec.extractLsb'_append_eq_right,
    Nat.reduceSub]

theorem extractLsb'_base_uopWord (op : BitVec 3) (sel : BitVec 1) (base : BitVec 6) :
    (uopWord op sel base).extractLsb' 0 6 = base :=
  BitVec.extractLsb'_append_eq_right

theorem extractLsb'_sel_base_uopWord (op : BitVec 3) (sel : BitVec 1) (base : BitVec 6) :
    (uopWord op sel base).extractLsb' 0 7 = sel ++ base := by
  rw [uopWord, BitVec.append_assoc]
  exact BitVec.extractLsb'_append_eq_right

/-- A micro-operation word is its three fields. -/
theorem uopWord_extractLsb' (word : BitVec 10) :
    uopWord (word.extractLsb' 7 3) (word.extractLsb' 6 1) (word.extractLsb' 0 6) = word := by
  have hhigh : word.extractLsb' 7 3 ++ word.extractLsb' 6 1 = word.extractLsb' 6 4 :=
    BitVec.extractLsb'_append_extractLsb'_eq_extractLsb' rfl
  rw [uopWord, hhigh]
  exact (BitVec.extractLsb'_append_extractLsb'_eq_extractLsb' rfl).trans BitVec.extractLsb'_eq_self

/-! ## Micro-operation words (R87, R90) -/

/-- Every word with `op = 110` is an ADD_ROUND_KEY. -/
theorem decodeUop_uopWord_six (sel : BitVec 1) (base : BitVec 6) :
    decodeUop (uopWord 6 sel base) = .ok (.addRoundKey (if sel = 0 then .F else .I) base.toNat) := by
  simp only [decodeUop, extractLsb'_op_uopWord, extractLsb'_sel_uopWord, extractLsb'_base_uopWord, if_true]

/-- An operand-free operation needs its fields zero. -/
theorem decodeUop_uopWord_of_fields_ne {op : BitVec 3} {sel : BitVec 1} {base : BitVec 6} (hop : op ≠ 6)
    (h : ¬ (sel = 0 ∧ base = 0)) :
    decodeUop (uopWord op sel base) = .error (.reservedUop (uopWord op sel base)) := by
  simp only [decodeUop, extractLsb'_op_uopWord, extractLsb'_sel_uopWord, extractLsb'_base_uopWord, if_neg hop, if_neg h]

/-- The fields `sel` and `base`, read as one, are zero where both are. -/
theorem append_eq_zero_iff : ∀ (sel : BitVec 1) (base : BitVec 6), sel ++ base = 0 ↔ sel = 0 ∧ base = 0 := by
  decide

theorem isReservedUop_uopWord {op : BitVec 3} {sel : BitVec 1} {base : BitVec 6} :
    isReservedUop (uopWord op sel base) ↔ op = 7 ∨ op ≠ 6 ∧ ¬ (sel = 0 ∧ base = 0) := by
  rw [isReservedUop, extractLsb'_op_uopWord, extractLsb'_sel_base_uopWord, Ne, Ne, append_eq_zero_iff]

theorem encode_toInstr (u : Uop) : encode u.toInstr = .uop u.word := by
  cases u <;> rfl

theorem Sel.ite_bit (sel : Sel) : (if sel.bit = 0 then .F else .I) = sel := by
  cases sel <;> rfl

theorem Sel.bit_ite (sel : BitVec 1) : Sel.bit (if sel = 0 then .F else .I) = sel :=
  (by decide : ∀ sel : BitVec 1, Sel.bit (if sel = 0 then .F else .I) = sel) sel

/-- What a micro-operation word is: the word of one well-formed micro-operation, or reserved. -/
inductive UopCase (word : BitVec 10) : Prop where
  | uop (u : Uop) (hw : wellFormed u.toInstr = true) (hword : u.word = word) (hr : ¬ isReservedUop word)
      (hd : decodeUop word = .ok u.toInstr)
  | reserved (hr : isReservedUop word) (hd : decodeUop word = .error (.reservedUop word))

/-- By the fields: `op = 110` takes all of them, any other operation only zeros, and `op = 111` none. -/
theorem UopCase.uopWord (op : BitVec 3) (sel : BitVec 1) (base : BitVec 6) : UopCase (uopWord op sel base) := by
  have hop : ∀ op : BitVec 3, op = 0 ∨ op = 1 ∨ op = 2 ∨ op = 3 ∨ op = 4 ∨ op = 5 ∨ op = 6 ∨ op = 7 := by decide
  by_cases hsix : op = 6
  · subst hsix
    refine .uop (.addRoundKey (if sel = 0 then .F else .I) base.toNat) (decide_eq_true base.isLt) ?_ ?_
      (decodeUop_uopWord_six sel base)
    · rw [Uop.word, Sel.bit_ite, BitVec.ofNat_toNat, BitVec.setWidth_eq]
    · rw [isReservedUop_uopWord]
      exact fun h => h.elim (by decide) fun h => h.1 rfl
  · by_cases hz : sel = 0 ∧ base = 0
    · obtain ⟨rfl, rfl⟩ := hz
      rcases hop op with rfl | rfl | rfl | rfl | rfl | rfl | rfl | rfl
      · exact .uop .subBytes rfl rfl (by decide) (by decide)
      · exact .uop .invSubBytes rfl rfl (by decide) (by decide)
      · exact .uop .shiftRows rfl rfl (by decide) (by decide)
      · exact .uop .invShiftRows rfl rfl (by decide) (by decide)
      · exact .uop .mixColumns rfl rfl (by decide) (by decide)
      · exact .uop .invMixColumns rfl rfl (by decide) (by decide)
      · exact absurd rfl hsix
      · exact .reserved (by decide) (by decide)
    · exact .reserved (isReservedUop_uopWord.mpr (.inr ⟨hsix, hz⟩)) (decodeUop_uopWord_of_fields_ne hsix hz)

theorem uop_cases (word : BitVec 10) : UopCase word :=
  uopWord_extractLsb' word ▸ UopCase.uopWord _ _ _

/-- Settles O3: a word that decodes is the word of one micro-operation. -/
theorem encodeOfDecodedUopIsIdentity : Obligations.EncodeOfDecodedUopIsIdentity := by
  intro word i h
  cases uop_cases word with
  | uop u hw hword hr hd =>
    obtain rfl : u.toInstr = i := Except.ok.inj (hd.symm.trans h)
    exact ⟨hw, hword ▸ encode_toInstr u⟩
  | reserved hr hd => exact nomatch hd.symm.trans h

theorem decodeUop_word {u : Uop} (h : wellFormed u.toInstr = true) : decodeUop u.word = .ok u.toInstr := by
  cases u
  case addRoundKey sel base =>
    have hbase : base < 64 := of_decide_eq_true h
    rw [Uop.word, decodeUop_uopWord_six, Sel.ite_bit, BitVec.toNat_ofNat, Nat.mod_eq_of_lt hbase]
    rfl
  all_goals rfl

theorem Machine.step_of_decodeUop_error {s : State} {word : BitVec 10} {rest : List (BitVec 10)} {e : Reject}
    (hu : s.uopIn = word :: rest) (hd : decodeUop word = .error e) : step s = .refused (.reservedUop word) := by
  simp only [step, fetch, hu, fetchUop, hd]

theorem Machine.step_of_decodeUop_ok {s : State} {word : BitVec 10} {rest : List (BitVec 10)} {i : Instr}
    (hu : s.uopIn = word :: rest) (hd : decodeUop word = .ok i) :
    step s = exec i (s.closeResponse.setUopIn rest) := by
  simp only [step, fetch, hu, fetchUop, hd]

/-- Settles O5: a word is reserved or the word of a micro-operation, never both. -/
theorem reservedUopWordsAreRefused : Obligations.ReservedUopWordsAreRefused := by
  refine ⟨fun word h => ?_, fun word h => ?_⟩
  · cases uop_cases word with
    | uop u hw hword hr hd => exact absurd h hr
    | reserved hr hd => exact ⟨hd, fun _ _ hu => step_of_decodeUop_error hu hd⟩
  · cases uop_cases word with
    | uop u hw hword hr hd => exact ⟨u.toInstr, hd⟩
    | reserved hr hd => exact absurd hr h

end Sys2Proof
end

section
/-!
PROOF. Command words and their buses, decoding as the inverse of encoding at both levels, and the block bus (R53, R82 to
R87).
-/
namespace Sys2Proof

open Machine

/-! ## Command words and their buses (R82 to R84) -/

/-- A key word is a field of any part of the bus that holds it. -/
theorem busWord_eq_extractLsb' (k : BitVec 256) {j start len : Nat} (hlo : start ≤ 224 - 32 * j)
    (hhi : 224 - 32 * j + 32 ≤ start + len) :
    busWord k j = (k.extractLsb' start len).extractLsb' (224 - 32 * j - start) 32 := by
  rw [extractLsb'_extractLsb'_of_add_le k (by omega), Nat.add_sub_cancel' hlo]
  rfl

theorem decodeCommand_keyload128 (keyIn : BitVec 256) (blockIn : BitVec 128) : decodeCommand 0b000 keyIn blockIn =
    .ok (.keyload128 (busWord keyIn 0) (busWord keyIn 1) (busWord keyIn 2) (busWord keyIn 3)) := rfl

theorem decodeCommand_keyload192 (keyIn : BitVec 256) (blockIn : BitVec 128) : decodeCommand 0b001 keyIn blockIn =
    .ok (.keyload192 (busWord keyIn 0) (busWord keyIn 1) (busWord keyIn 2) (busWord keyIn 3) (busWord keyIn 4)
      (busWord keyIn 5)) := rfl

theorem decodeCommand_keyload256 (keyIn : BitVec 256) (blockIn : BitVec 128) : decodeCommand 0b010 keyIn blockIn =
    .ok (.keyload256 (busWord keyIn 0) (busWord keyIn 1) (busWord keyIn 2) (busWord keyIn 3) (busWord keyIn 4)
      (busWord keyIn 5) (busWord keyIn 6) (busWord keyIn 7)) := rfl

theorem decodeCommand_cipher (keyIn : BitVec 256) (blockIn : BitVec 128) : decodeCommand 0b100 keyIn blockIn =
    .ok (.cipher (AesState.ofBus blockIn)) := rfl

theorem decodeCommand_decipher (keyIn : BitVec 256) (blockIn : BitVec 128) : decodeCommand 0b101 keyIn blockIn =
    .ok (.decipher (AesState.ofBus blockIn)) := rfl

/-- Settles O1: the words of the key loads are fields of the key bus, read off here at fixed buses. -/
theorem sampleWordsDecode : Obligations.SampleWordsDecode := by
  refine ⟨rfl, rfl, rfl, rfl, rfl, ?_⟩
  decide

/-- Settles O6: a key load reads its key words, which stand in the used part of the bus; a block command reads the block
bus alone. -/
theorem unusedBusBitsAreIgnored : Obligations.UnusedBusBitsAreIgnored := by
  intro k k' b b'
  refine ⟨fun h => ?_, fun h => ?_, decodeCommand_keyload256 k b, decodeCommand_cipher k b, decodeCommand_decipher k b⟩
  · have hword : ∀ j < 4, busWord k j = busWord k' j := fun j hj => by
      rw [busWord_eq_extractLsb' k (start := 128) (len := 128) (by omega) (by omega), h,
        ← busWord_eq_extractLsb' k' (by omega) (by omega)]
    simp (disch := decide) only [decodeCommand_keyload128, hword]
  · have hword : ∀ j < 6, busWord k j = busWord k' j := fun j hj => by
      rw [busWord_eq_extractLsb' k (start := 64) (len := 192) (by omega) (by omega), h,
        ← busWord_eq_extractLsb' k' (by omega) (by omega)]
    simp (disch := decide) only [decodeCommand_keyload192, hword]

/-! ## Decoding undoes encoding (R82 to R87) -/

/-- The key buses that the encoder writes hold the key words in their places. -/
theorem decode_encode_keyload128 (k0 k1 k2 k3 : Word) :
    decode (encode (.keyload128 k0 k1 k2 k3)) = .ok (.keyload128 k0 k1 k2 k3) := by
  refine (decodeCommand_keyload128 (k0 ++ k1 ++ k2 ++ k3 ++ (0 : BitVec 128)) 0).trans ?_
  simp (disch := decide) only [busWord, BitVec.extractLsb'_append_eq_of_le, BitVec.extractLsb'_append_eq_right,
    BitVec.extractLsb'_eq_self, Nat.reduceSub, Nat.reduceMul]

theorem decode_encode_keyload192 (k0 k1 k2 k3 k4 k5 : Word) :
    decode (encode (.keyload192 k0 k1 k2 k3 k4 k5)) = .ok (.keyload192 k0 k1 k2 k3 k4 k5) := by
  refine (decodeCommand_keyload192 (k0 ++ k1 ++ k2 ++ k3 ++ k4 ++ k5 ++ (0 : BitVec 64)) 0).trans ?_
  simp (disch := decide) only [busWord, BitVec.extractLsb'_append_eq_of_le, BitVec.extractLsb'_append_eq_right,
    BitVec.extractLsb'_eq_self, Nat.reduceSub, Nat.reduceMul]

theorem decode_encode_keyload256 (k0 k1 k2 k3 k4 k5 k6 k7 : Word) :
    decode (encode (.keyload256 k0 k1 k2 k3 k4 k5 k6 k7)) = .ok (.keyload256 k0 k1 k2 k3 k4 k5 k6 k7) := by
  refine (decodeCommand_keyload256 (k0 ++ k1 ++ k2 ++ k3 ++ k4 ++ k5 ++ k6 ++ k7) 0).trans ?_
  simp (disch := decide) only [busWord, BitVec.extractLsb'_append_eq_of_le, BitVec.extractLsb'_append_eq_right,
    BitVec.extractLsb'_eq_self, Nat.reduceSub, Nat.reduceMul]

theorem decode_encode_toInstr {u : Uop} (h : wellFormed u.toInstr = true) :
    decode (encode u.toInstr) = .ok u.toInstr := by
  rw [encode_toInstr]
  exact decodeUop_word h

/-- Settles O2: key words and blocks survive their buses, and a micro-operation its word. -/
theorem decodeOfEncodeIsIdentity : Obligations.DecodeOfEncodeIsIdentity := by
  intro i h
  cases i
  case keyload128 => exact decode_encode_keyload128 ..
  case keyload192 => exact decode_encode_keyload192 ..
  case keyload256 => exact decode_encode_keyload256 ..
  case cipher block =>
    exact (decodeCommand_cipher 0 block.toBus).trans (by rw [AesState.ofBus_toBus])
  case decipher block =>
    exact (decodeCommand_decipher 0 block.toBus).trans (by rw [AesState.ofBus_toBus])
  case subBytes => exact decode_encode_toInstr (u := .subBytes) h
  case invSubBytes => exact decode_encode_toInstr (u := .invSubBytes) h
  case shiftRows => exact decode_encode_toInstr (u := .shiftRows) h
  case invShiftRows => exact decode_encode_toInstr (u := .invShiftRows) h
  case mixColumns => exact decode_encode_toInstr (u := .mixColumns) h
  case invMixColumns => exact decode_encode_toInstr (u := .invMixColumns) h
  case addRoundKey sel base => exact decode_encode_toInstr (u := .addRoundKey sel base) h

/-- A command word that decodes is the word of its instruction, and every command is well-formed. -/
theorem encode_of_decodeCommand_ok {cmd : BitVec 3} {keyIn : BitVec 256} {blockIn : BitVec 128} {i : Instr}
    (h : decodeCommand cmd keyIn blockIn = .ok i) :
    wellFormed i = true ∧ ∃ keyIn' blockIn', encode i = .command cmd keyIn' blockIn' := by
  have hcmd : ∀ c : BitVec 3, isReservedCommand c ∨ c = 0b000 ∨ c = 0b001 ∨ c = 0b010 ∨ c = 0b100 ∨ c = 0b101 := by
    decide
  rcases hcmd cmd with hr | rfl | rfl | rfl | rfl | rfl
  · exact nomatch (decodeCommand_of_isReservedCommand hr keyIn blockIn).symm.trans h
  all_goals
    obtain rfl := Except.ok.inj h
    exact ⟨rfl, _, _, rfl⟩

/-- Settles O4: the instruction keeps its word, and its own buses decode to it by O2. -/
theorem encodeOfDecodedCommandKeepsItsWord : Obligations.EncodeOfDecodedCommandKeepsItsWord := by
  intro cmd keyIn blockIn i h
  obtain ⟨hw, keyIn', blockIn', he⟩ := encode_of_decodeCommand_ok h
  exact ⟨hw, keyIn', blockIn', he, (congrArg decode he).symm.trans (decodeOfEncodeIsIdentity i hw)⟩

/-! ## The block bus (R53, R84) -/

/-- Byte `i` of the bus goes to flat index `i`: row `i mod 4` of column `i div 4`. -/
theorem AesState.flat_ofBus (bus : BitVec 128) (i : Fin 16) : (AesState.ofBus bus).flat i = busByte bus i := by
  rw [AesState.flat, AesState.ofBus, AesState.at_ofFn, Nat.mod_add_div]

@[simp] theorem AesState.toBus_ofBus (bus : BitVec 128) : (AesState.ofBus bus).toBus = bus := by
  simp only [AesState.ofBus_eq_ofWord, AesState.toBus, Column.toWord_ofWord]
  rw [BitVec.extractLsb'_append_extractLsb'_eq_extractLsb' (start₁ := 64) (start₂ := 96) rfl,
    BitVec.extractLsb'_append_extractLsb'_eq_extractLsb' (start₁ := 32) (start₂ := 64) rfl]
  exact (BitVec.extractLsb'_append_extractLsb'_eq_extractLsb' rfl).trans BitVec.extractLsb'_eq_self

/-- Settles O7: the bytes of a loaded block, and the two directions undo each other. -/
theorem blockBusPacking : Obligations.BlockBusPacking := by
  refine ⟨AesState.flat_ofBus, fun S i => ?_, AesState.toBus_ofBus, AesState.ofBus_toBus⟩
  have hbyte := AesState.flat_ofBus S.toBus i
  rw [AesState.ofBus_toBus] at hbyte
  exact hbyte.symm

end Sys2Proof
end

section
/-!
PROOF. One step, taken up and run (R9): the decoded instruction, RESET, the idle moment, and a micro-operation that performs
nothing (R203, R208, R210, R230).
-/
namespace Sys2Proof

open Machine

/-! ## Taking up and running -/

theorem Machine.step_of_reset {s : State} {rest : List HostEvent} (hu : s.uopIn = []) (hh : s.host = .reset :: rest) :
    step s = .next (s.closeResponse.setHost rest).resetCore := by
  simp only [step, fetch, hu, hh, fetchHost]

/-- Settles O8: taking up the command sets the two fields that the statement names. -/
theorem stepRunsTheDecodedCommand : Obligations.StepRunsTheDecodedCommand :=
  fun _ _ _ _ _ _ hu hh hd => step_of_decodeCommand_ok hu hh hd

/-- Settles O9: taking up the word sets the two fields that the statement names. -/
theorem stepRunsTheDecodedUop : Obligations.StepRunsTheDecodedUop :=
  fun _ _ _ _ hu hd => step_of_decodeUop_ok hu hd

/-- Settles O17: with nothing to take up the step removes the response alone. -/
theorem idleStepKeepsTheState : Obligations.IdleStepKeepsTheState := by
  intro s hu hh
  simp only [step, fetch, hu, hh, State.closeResponse]

/-- Settles O15: the RESET event is taken up and each field is read off the core it leaves. -/
theorem resetEventClearsTheFlags : Obligations.ResetEventClearsTheFlags :=
  fun _ _ hu hh => ⟨_, step_of_reset hu hh, rfl, rfl, rfl, rfl, rfl, rfl, rfl⟩

/-- Settles O16: the fields of the reset state. -/
theorem resetStateFlags : Obligations.ResetStateFlags :=
  ⟨State.reset_kv, State.reset_fault, State.reset_seq, State.reset_rsp, State.reset_K⟩

/-! ## A micro-operation that does not complete -/

/-- Settles O13: the flag, the response and the phase are the three fields that a bounds violation writes. -/
theorem boundsViolationEntersTheFaultState : Obligations.BoundsViolationEntersTheFaultState :=
  ⟨rfl, fun _ sel _ hf h => exec_addRoundKey_of_gt hf h sel⟩

/-- Settles O14: in the fault state no micro-operation writes anything. -/
theorem uopInFaultedCorePerformsNothing : Obligations.UopInFaultedCorePerformsNothing := by
  intro s u hf
  rw [exec_toInstr, State.runUop_of_fault hf]

end Sys2Proof
end

section
/-!
PROOF. The frame of every instruction, the fault state out of the host's reach, and the answer to every command (R20, R85,
R167, R203, R238).
-/
namespace Sys2Proof

open Machine

/-! ## The frame of an instruction (R20, R188) -/

/-- Settles O54: a refusal writes the response, a block command `S` and its own bookkeeping, a micro-operation `S` or the
fault state. -/
theorem onlyKeyloadsWriteTheRetainedState : Obligations.OnlyKeyloadsWriteTheRetainedState := by
  intro i s
  cases exec_cases i s with
  | errFault hf he => exact ⟨_, he, fun _ => ⟨rfl, rfl, rfl, rfl, rfl⟩, .inl rfl, rfl, rfl⟩
  | errNoKey hi hf hk he => exact ⟨_, he, fun _ => ⟨rfl, rfl, rfl, rfl, rfl⟩, .inl rfl, rfl, rfl⟩
  | keyload k key W hkey hW hi hf he =>
    exact ⟨_, he, fun hno => (nomatch hno.symm.trans hi), .inl rfl, rfl, rfl⟩
  | block out hi hf hk he => exact ⟨_, he, fun _ => ⟨rfl, rfl, rfl, rfl, rfl⟩, .inl rfl, rfl, rfl⟩
  | uop u hi he =>
    rcases State.runUop_cases s u with ⟨hu, -⟩ | ⟨-, S, hu⟩ | ⟨hf, hu, sel, base, rfl, hb⟩ <;> rw [hu] at he
    · exact ⟨_, he, fun _ => ⟨rfl, rfl, rfl, rfl, rfl⟩, .inl rfl, rfl, rfl⟩
    · exact ⟨_, he, fun _ => ⟨rfl, rfl, rfl, rfl, rfl⟩, .inl rfl, rfl, rfl⟩
    · exact ⟨_, he, fun _ => ⟨rfl, rfl, rfl, rfl, rfl⟩, .inr ⟨hf, rfl, sel, base, hi, hb⟩, rfl, rfl⟩

/-! ## The fault state is out of the host's reach (R167, R203) -/

/-- The host can issue no micro-operation (R80). -/
theorem decodeCommand_ne_addRoundKey (cmd : BitVec 3) (keyIn : BitVec 256) (blockIn : BitVec 128) (sel : Sel)
    (base : Nat) : decodeCommand cmd keyIn blockIn ≠ .ok (.addRoundKey sel base) := by
  intro h
  obtain ⟨-, _, _, he⟩ := encode_of_decodeCommand_ok h
  exact nomatch he

/-- Settles O57: no command decodes to an ADD_ROUND_KEY, the one instruction that sets `fault`. -/
theorem stepKeepsTheCoreFaultFree : Obligations.StepKeepsTheCoreFaultFree := by
  rintro s ⟨hu, hf⟩
  rcases step_cases s with ⟨-, -, h⟩ | ⟨rest, -, -, h⟩ | ⟨cmd, keyIn, blockIn, rest, i, -, -, hd, h⟩ |
    ⟨_, _, _, rest, _, -, -, -, h⟩ | ⟨_, _, _, hw, -⟩ | ⟨_, _, _, hw, -⟩
  · exact ⟨_, h, hu, hf⟩
  · exact ⟨_, h, rfl, rfl⟩
  · obtain ⟨t, he, -, hfault, -, huop⟩ := onlyKeyloadsWriteTheRetainedState i (s.closeResponse.setHost rest)
    refine ⟨t, h.trans he, huop.trans hu, ?_⟩
    rcases hfault with hkeep | ⟨-, -, sel, base, rfl, -⟩
    · exact hkeep.trans hf
    · exact absurd hd (decodeCommand_ne_addRoundKey _ _ _ _ _)
  · rw [State.acceptReserved_eq] at h
    exact ⟨_, h, hu, hf⟩
  · exact nomatch hu.symm.trans hw
  · exact nomatch hu.symm.trans hw

/-! ## Every command answers (R85, R238) -/

theorem exec_completes (i : Instr) (s : State) : ∃ t, exec i s = .next t := by
  obtain ⟨t, he, -⟩ := onlyKeyloadsWriteTheRetainedState i s
  exact ⟨t, he⟩

/-- The host's events are not touched by an instruction. -/
theorem Machine.exec_host {i : Instr} {s t : State} (h : exec i s = .next t) : t.host = s.host := by
  obtain ⟨t', he, -, -, hhost, -⟩ := onlyKeyloadsWriteTheRetainedState i s
  obtain rfl : t' = t := Host.Outcome.next.inj (he.symm.trans h)
  exact hhost

/-- Settles O18: each of the four clauses of the acceptance order names its response, and they leave no command out. -/
theorem everyCommandAnswers : Obligations.EveryCommandAnswers := by
  refine ⟨exec_completes, fun s cmd keyIn blockIn rest hu hh => ?_⟩
  obtain ⟨hfaulted, hreserved, hnoKey, hperformed⟩ := acceptanceOrder s cmd keyIn blockIn rest hu hh
  cases hf : s.fault
  case true => exact ⟨_, _, hfaulted hf, rfl, rfl⟩
  case false =>
    by_cases hr : isReservedCommand cmd
    · exact ⟨_, _, hreserved hf hr, rfl, rfl⟩
    by_cases hk : isBlockCommand cmd → s.kv = true
    · obtain ⟨i, t, -, hs, he, hrsp⟩ := hperformed hf hr hk
      split at hrsp
      case isTrue =>
        obtain ⟨block, hrsp⟩ := hrsp
        exact ⟨t, _, hs, hrsp, exec_host he⟩
      case isFalse => exact ⟨t, _, hs, hrsp, exec_host he⟩
    · obtain ⟨hb, hkv⟩ := Classical.not_imp.mp hk
      exact ⟨_, _, hnoKey hf hb (Bool.eq_false_of_not_eq_true hkv), rfl, rfl⟩

end Sys2Proof
end

section
/-!
PROOF. The invariant of the retained state: it holds after reset and every step keeps it (R22 to R27, R233).
-/
namespace Sys2Proof

open Machine

/-! ## The invariant and the fields it reads -/

/-- The invariant reads the retained fields and asks the sequencer to idle. -/
theorem CoreInv.congr {s t : State} (h : CoreInv s) (hkv : t.kv = s.kv) (hk : t.ksize = s.ksize) (hW : t.W = s.W)
    (hDW : t.DW = s.DW) (hK : t.K = s.K) (hseq : t.seq = .idle) : CoreInv t where
  memory := (Memory.wf_congr hk hW hDW).trans h.memory
  idle := hseq
  noKey := hK.trans h.noKey
  forward := fun hv => by
    rw [hk, hW]
    exact h.forward (hkv.symm.trans hv)
  inverse := fun hv => by
    rw [hW, hDW]
    exact h.inverse (hkv.symm.trans hv)

/-- Without a key the schedules need only their form. -/
theorem CoreInv.of_noKey {s : State} (hwf : Memory.wf s = true) (hkv : s.kv = false) (hK : s.K = [])
    (hseq : s.seq = .idle) : CoreInv s where
  memory := hwf
  idle := hseq
  noKey := hK
  forward := fun hv => nomatch hkv.symm.trans hv
  inverse := fun hv => nomatch hkv.symm.trans hv

/-- Settles O56: the reset state has no key and schedules of the right length. -/
theorem resetMeetsTheInvariants : Obligations.ResetMeetsTheInvariants :=
  ⟨.of_noKey State.reset_memory_wf State.reset_kv State.reset_K State.reset_seq,
    State.reset_uopIn, State.reset_fault⟩

theorem Machine.State.resetCore_coreInv (s : State) : CoreInv s.resetCore :=
  .of_noKey s.resetCore_memory_wf rfl rfl rfl

/-! ## A key load (R233) -/

/-- A schedule begins with its key. -/
theorem IsForwardSchedule.take_nk {k : KeySize} {key W : List Word} (h : IsForwardSchedule k key W)
    (hkey : key.length = k.nk) : W.take k.nk = key := by
  have hlen : (W.take k.nk).length = k.nk := by
    rw [List.length_take, h.length, Nat.min_eq_left (nk_le_wlen k)]
  refine ext_scheduleWord (hlen.trans hkey.symm) fun i hi => ?_
  rw [← h.seed i (hlen ▸ hi), ← scheduleWord_append_left hi, List.take_append_drop]

/-- A completed key load leaves the schedules of its key. -/
theorem CoreInv.of_keyload {k : KeySize} {key W : List Word} (hW : IsForwardSchedule k key W)
    (hkey : key.length = k.nk) {s : State} (hk : s.ksize = k) (hsW : s.W = W) (hDW : s.DW = W.map invMixWord)
    (hK : s.K = []) (hseq : s.seq = .idle) : CoreInv s := by
  subst hk hsW
  refine ⟨?_, hseq, hK, fun _ => ?_, fun _ => hDW⟩
  · rw [Memory.wf_iff, hDW, List.length_map]
    exact ⟨hW.length, hW.length⟩
  · rw [hW.take_nk hkey]
    exact hW

/-! ## Every instruction and every step -/

theorem Machine.exec_keeps_coreInv {i : Instr} {s t : State} (h : CoreInv s) (he : exec i s = .next t) :
    CoreInv t := by
  cases exec_cases i s with
  | errFault hf heq =>
    obtain rfl := Host.Outcome.next.inj (he.symm.trans heq)
    exact h.congr rfl rfl rfl rfl rfl h.idle
  | errNoKey hi hf hk heq =>
    obtain rfl := Host.Outcome.next.inj (he.symm.trans heq)
    exact h.congr rfl rfl rfl rfl rfl h.idle
  | keyload k key W hkey hW hi hf heq =>
    obtain rfl := Host.Outcome.next.inj (he.symm.trans heq)
    exact .of_keyload hW hkey rfl rfl rfl rfl rfl
  | block out hi hf hk heq =>
    obtain rfl := Host.Outcome.next.inj (he.symm.trans heq)
    exact h.congr rfl rfl rfl rfl rfl rfl
  | uop u hi heq =>
    obtain rfl := Host.Outcome.next.inj (he.symm.trans heq)
    rcases State.runUop_cases s u with ⟨hu, -⟩ | ⟨-, S, hu⟩ | ⟨-, hu, -⟩ <;> rw [hu]
    · exact h
    · exact h.congr rfl rfl rfl rfl rfl h.idle
    · exact h.congr rfl rfl rfl rfl rfl rfl

/-- Settles O55: by what a step can do; taking up the next thing changes no field the invariant reads. -/
theorem stepKeepsCoreInv : Obligations.StepKeepsCoreInv := by
  intro s t hinv hstep
  rcases step_cases s with ⟨-, -, h⟩ | ⟨rest, -, -, h⟩ | ⟨_, _, _, rest, i, -, -, -, h⟩ |
    ⟨_, _, _, rest, _, -, -, -, h⟩ | ⟨_, rest, i, -, -, h⟩ | ⟨_, _, _, -, -, h⟩ <;>
    have h := hstep.symm.trans h
  · obtain rfl := Host.Outcome.next.inj h
    exact hinv.congr rfl rfl rfl rfl rfl hinv.idle
  · obtain rfl := Host.Outcome.next.inj h
    exact State.resetCore_coreInv _
  · exact exec_keeps_coreInv (s := s.closeResponse.setHost rest) (hinv.congr rfl rfl rfl rfl rfl hinv.idle) h.symm
  · rw [State.acceptReserved_eq] at h
    obtain rfl := Host.Outcome.next.inj h
    exact hinv.congr rfl rfl rfl rfl rfl hinv.idle
  · exact exec_keeps_coreInv (s := s.closeResponse.setUopIn rest) (hinv.congr rfl rfl rfl rfl rfl hinv.idle) h.symm
  · exact nomatch h

end Sys2Proof
end

section
/-!
PROOF. What the host cannot tell apart stays so through every step (R34).
-/
namespace Sys2Proof

open Machine

/-! ## The operations of a step keep the relation -/

theorem SameToHost.respond {s t : State} (h : SameToHost s t) (r : Response) :
    SameToHost (s.respond r) (t.respond r) :=
  { h with rsp := rfl }

/-- Taking up the next event of the host. -/
theorem SameToHost.takeUp {s t : State} (h : SameToHost s t) (rest : List HostEvent) :
    SameToHost (s.closeResponse.setHost rest) (t.closeResponse.setHost rest) :=
  { h with rsp := rfl, host := rfl }

/-- After RESET no key is valid, so the schedules may differ. -/
theorem SameToHost.resetCore {s t : State} (h : SameToHost s t) : SameToHost s.resetCore t.resetCore where
  kv := rfl
  fault := rfl
  ksize := fun hkv => nomatch hkv
  forward := fun hkv => nomatch hkv
  inverse := fun hkv => nomatch hkv
  key := rfl
  seq := rfl
  rsp := rfl
  host := h.host
  sNoUop := rfl
  tNoUop := rfl

theorem Machine.State.accept_reserved {s : State} (h : s.fault = false) (p : State → State) :
    s.accept .reserved p = s.respond .errBadCmd := by
  simp [State.accept, State.acceptance, h]

/-- The acceptance checks read the two flags alone, so two such cores refuse or perform a command alike. -/
theorem SameToHost.accept {s t : State} (h : SameToHost s t) (c : CommandClass) {p q : State → State}
    (hperform : s.fault = false → (c = .block → s.kv = true) → SameToHost (p s) (q t)) :
    SameToHost (s.accept c p) (t.accept c q) := by
  rcases State.accept_cases s c p with ⟨hs, hf⟩ | ⟨hs, hf, rfl⟩ | ⟨hs, hf, hk, rfl⟩ | ⟨hs, hf, hc, hk⟩ <;> rw [hs]
  · rw [State.accept_of_fault (h.fault.symm.trans hf)]
    exact h.respond _
  · rw [State.accept_reserved (h.fault.symm.trans hf)]
    exact h.respond _
  · rw [State.accept_block_of_noKey (h.fault.symm.trans hf) (h.kv.symm.trans hk)]
    exact h.respond _
  · have ht : t.accept c q = q t := by
      cases c
      case reserved => exact absurd rfl hc
      case keyload => exact State.accept_keyload (h.fault.symm.trans hf) q
      case block => exact State.accept_block (h.fault.symm.trans hf) (h.kv.symm.trans (hk rfl)) q
    rw [ht]
    exact hperform hf hk

/-- A key load leaves the schedules of its key in both, whatever they held. -/
theorem SameToHost.performKeyload {s t : State} (h : SameToHost s t) {k : KeySize} {key : List Word}
    (hkey : key.length = k.nk) : SameToHost (s.performKeyload k key) (t.performKeyload k key) := by
  obtain ⟨W, hW, hs⟩ := State.performKeyload_eq hkey s
  obtain ⟨W', hW', ht⟩ := State.performKeyload_eq hkey t
  obtain rfl := hW.unique hW'
  rw [hs, ht]
  exact { h with kv := rfl, ksize := fun _ => rfl, forward := fun _ => rfl, inverse := fun _ => rfl,
                 key := rfl, seq := rfl, rsp := rfl }

/-- With a key, a block command answers from the schedules, which are the same, and then drops `S`. -/
theorem SameToHost.performBlock {s t : State} (h : SameToHost s t) (phase : Nat → Sequencer)
    {program : Nat → List (Nat × Uop)} (hin : ∀ nr, ∀ x ∈ program nr, Uop.InBounds (4 * (nr + 1)) x.2)
    (hf : s.fault = false) (hk : s.kv = true) (block : AesState) :
    SameToHost (s.performBlock phase (program s.nr) block) (t.performBlock phase (program t.nr) block) := by
  rw [State.performBlock_eq phase hf (hin s.nr), State.performBlock_eq phase (h.fault.symm.trans hf) (hin t.nr),
    State.nr, State.nr, ← h.ksize hk, ← h.forward hk, ← h.inverse hk]
  exact { h with seq := rfl, rsp := rfl }

/-! ## A step -/

/-- Settles O58: with no micro-operation word the two cores take up the same event, and a command goes through the
acceptance of its class. -/
theorem unspecifiedStateIsNeverSeen : Obligations.UnspecifiedStateIsNeverSeen := by
  intro s t h
  match hh : s.host with
  | [] =>
    exact ⟨_, _, idleStepKeepsTheState s h.sNoUop hh, idleStepKeepsTheState t h.tNoUop (h.host.symm.trans hh),
      { h with rsp := rfl }⟩
  | .reset :: rest =>
    exact ⟨_, _, Machine.step_of_reset h.sNoUop hh, Machine.step_of_reset h.tNoUop (h.host.symm.trans hh),
      (h.takeUp rest).resetCore⟩
  | .command cmd keyIn blockIn :: rest =>
    have hs := h.takeUp rest
    cases command_cases cmd keyIn blockIn with
    | reserved hr hb hd =>
      exact ⟨_, _, step_of_decodeCommand_error h.sNoUop hh hd,
        step_of_decodeCommand_error h.tNoUop (h.host.symm.trans hh) hd, hs.accept .reserved fun _ _ => hs⟩
    | keyload hr hb i k key hkey hd he =>
      exact ⟨_, _, (step_of_decodeCommand_ok h.sNoUop hh hd).trans (he _),
        (step_of_decodeCommand_ok h.tNoUop (h.host.symm.trans hh) hd).trans (he _),
        hs.accept .keyload fun _ _ => hs.performKeyload hkey⟩
    | block hr hb i phase program block hin hd he =>
      exact ⟨_, _, (step_of_decodeCommand_ok h.sNoUop hh hd).trans (he _),
        (step_of_decodeCommand_ok h.tNoUop (h.host.symm.trans hh) hd).trans (he _),
        hs.accept .block fun hf hk => hs.performBlock phase hin hf (hk rfl) block⟩

end Sys2Proof
end

section
/-!
PROOF. The key loads (R181 to R183): the whole next state, and that it owes nothing to the key before.
-/
namespace Sys2Proof

open Machine

/-! ## One schedule for each key -/

/-- Settles O43: by the uniqueness of the equations' solution, which holds for keys of any length. -/
theorem scheduleIsDeterminedByTheKey : Obligations.ScheduleIsDeterminedByTheKey :=
  fun _ _ _ _ _ h h' => h.unique h'

/-- A key load depends on the key alone, whatever the core held. -/
theorem Machine.State.performKeyload_schedules {k : KeySize} {key : List Word} (hkey : key.length = k.nk)
    (s t : State) : (s.performKeyload k key).W = (t.performKeyload k key).W ∧
      (s.performKeyload k key).DW = (t.performKeyload k key).DW := by
  obtain ⟨W, hW, hs⟩ := State.performKeyload_eq hkey s
  obtain ⟨W', hW', ht⟩ := State.performKeyload_eq hkey t
  obtain rfl := hW.unique hW'
  rw [hs, ht]
  exact ⟨rfl, rfl⟩

/-! ## An accepted key load -/

/-- A key load that is accepted, field by field. -/
theorem Machine.exec_keyload_of_ok {i : Instr} {k : KeySize} {key : List Word} {s : State} (hf : s.fault = false)
    (hkey : key.length = k.nk) (he : exec i s = .next (s.accept .keyload (State.performKeyload k key))) :
    ∃ W DW, IsForwardSchedule k key W ∧ IsInverseSchedule W DW ∧ exec i s = .next { s with
      ksize := k, W := W, DW := DW, kv := true, K := [], seq := .idle, rsp := some .ok } := by
  obtain ⟨W, hW, hs⟩ := State.performKeyload_eq hkey s
  rw [State.accept_keyload hf, hs] at he
  exact ⟨W, W.map invMixWord, hW, rfl, he⟩

/-- The schedules that a key load leaves, computed from the reset state. -/
theorem Machine.exec_keyload_schedules {i : Instr} {k : KeySize} {key : List Word} {s : State} (hf : s.fault = false)
    (hkey : key.length = k.nk) (he : exec i s = .next (s.accept .keyload (State.performKeyload k key))) :
    ∃ t, exec i s = .next t ∧ t.W = (State.reset.performKeyload k key).W ∧
      t.DW = (State.reset.performKeyload k key).DW ∧ t.ksize = k ∧ t.fault = false ∧ t.kv = true ∧
      t.rsp = some .ok := by
  obtain ⟨W, hW, hs⟩ := State.performKeyload_eq hkey s
  obtain ⟨hfw, hinv⟩ := State.performKeyload_schedules hkey s State.reset
  rw [State.accept_keyload hf] at he
  rw [← hfw, ← hinv]
  refine ⟨_, he, rfl, rfl, ?_⟩
  rw [hs]
  exact ⟨rfl, hf, rfl, rfl⟩

/-! ## Nothing of the old key (R64) -/

/-- The three key loads are one operation, at three sizes of key. -/
theorem Machine.exec_of_isKeyload {i : Instr} (h : isKeyload i = true) :
    ∃ (k : KeySize) (key : List Word), key.length = k.nk ∧
      ∀ s, exec i s = .next (s.accept .keyload (State.performKeyload k key)) := by
  cases i
  case keyload128 => exact ⟨.k128, _, rfl, fun _ => rfl⟩
  case keyload192 => exact ⟨.k192, _, rfl, fun _ => rfl⟩
  case keyload256 => exact ⟨.k256, _, rfl, fun _ => rfl⟩
  all_goals exact nomatch h

/-- Settles O44: both states end with the schedules that the new key gives from reset. -/
theorem keyloadForgetsTheOldKey : Obligations.KeyloadForgetsTheOldKey := by
  intro i s t hi hfs hft
  obtain ⟨k, key, hkey, he⟩ := exec_of_isKeyload hi
  obtain ⟨s', hes, hW, hDW, hk, -, hkv, hrsp⟩ := exec_keyload_schedules hfs hkey (he s)
  obtain ⟨t', het, hW', hDW', hk', -, hkv', hrsp'⟩ := exec_keyload_schedules hft hkey (he t)
  exact ⟨s', t', hes, het, hk.trans hk'.symm, hW.trans hW'.symm, hDW.trans hDW'.symm, hkv, hkv', hrsp.trans hrsp'.symm⟩

/-! ## The spec's examples, and the three effects -/

/-- The key of R182's example. -/
def exampleKey192 : List Word := [0x00010203, 0x04050607, 0x08090a0b, 0x0c0d0e0f, 0x10111213, 0x14151617]

/-- The key of R183's example. -/
def exampleKey256 : List Word :=
  [0x00010203, 0x04050607, 0x08090a0b, 0x0c0d0e0f, 0x10111213, 0x14151617, 0x18191a1b, 0x1c1d1e1f]

/-- The words of the 128-bit test key's schedules that the spec prints (43_orchestrator.md R181). -/
theorem keyload128_example_words :
    let t := State.reset.performKeyload .k128 windowExampleKey
    (t.W.drop 4).take 4 = [0xd6aa74fd, 0xd2af72fa, 0xdaa678f1, 0xd6ab76fe] ∧
      t.W.drop 40 = [0x13111d7f, 0xe3944a17, 0xf307a78b, 0x4d2b30c5] ∧
      t.DW.drop 40 = [0x62e7ac49, 0xfe6803bf, 0x0918f63f, 0x09ef493c] := by
  decide +kernel

theorem keyload192_example_words :
    let t := State.reset.performKeyload .k192 exampleKey192
    (t.W.drop 6).take 4 = [0x5846f2f9, 0x5c43f4fe, 0x544afef5, 0x5847f0fa] ∧
      t.W.drop 48 = [0xa4970a33, 0x1a78dc09, 0xc418c271, 0xe3a41d5d] := by
  decide +kernel

theorem keyload256_example_words :
    let t := State.reset.performKeyload .k256 exampleKey256
    (t.W.drop 8).take 5 = [0xa573c29f, 0xa176c498, 0xa97fce93, 0xa572c09c, 0x1651a8cd] ∧
      t.W.drop 56 = [0x24fc79cc, 0xbf0979e9, 0x371ac23c, 0x6d68de36] := by
  decide +kernel

/-- Settles O40: the schedules are those of the four key words; the example is computed from the reset state. -/
theorem keyload128Effect : Obligations.Keyload128Effect := by
  refine ⟨decodeCommand_keyload128, fun s _ _ _ _ hf => exec_keyload_of_ok hf rfl rfl, fun s hf => ?_⟩
  obtain ⟨t, he, hW, hDW, -, -, hkv, hrsp⟩ :=
    exec_keyload_schedules (i := .keyload128 0x00010203 0x04050607 0x08090a0b 0x0c0d0e0f) (k := .k128)
      (key := windowExampleKey) hf rfl rfl
  obtain ⟨hfirst, hlast, hinverse⟩ := keyload128_example_words
  refine ⟨t, he, ?_⟩
  rw [hW, hDW]
  exact ⟨hfirst, hlast, hinverse, hkv, hrsp⟩

/-- Settles O41: as for KEYLOAD128, with six key words. -/
theorem keyload192Effect : Obligations.Keyload192Effect := by
  refine ⟨decodeCommand_keyload192, fun s _ _ _ _ _ _ hf => exec_keyload_of_ok hf rfl rfl, fun s hf => ?_⟩
  obtain ⟨t, he, hW, -, -, -, hkv, hrsp⟩ :=
    exec_keyload_schedules
      (i := .keyload192 0x00010203 0x04050607 0x08090a0b 0x0c0d0e0f 0x10111213 0x14151617) (k := .k192)
      (key := exampleKey192) hf rfl rfl
  obtain ⟨hfirst, hlast⟩ := keyload192_example_words
  refine ⟨t, he, ?_⟩
  rw [hW]
  exact ⟨hfirst, hlast, hkv, hrsp⟩

/-- Settles O42: as for KEYLOAD128, with eight key words. -/
theorem keyload256Effect : Obligations.Keyload256Effect := by
  refine ⟨decodeCommand_keyload256, fun s _ _ _ _ _ _ _ _ hf => exec_keyload_of_ok hf rfl rfl, fun s hf => ?_⟩
  obtain ⟨t, he, hW, -, -, -, hkv, hrsp⟩ :=
    exec_keyload_schedules
      (i := .keyload256 0x00010203 0x04050607 0x08090a0b 0x0c0d0e0f 0x10111213 0x14151617 0x18191a1b 0x1c1d1e1f)
      (k := .k256) (key := exampleKey256) hf rfl rfl
  obtain ⟨hfirst, hlast⟩ := keyload256_example_words
  refine ⟨t, he, ?_⟩
  rw [hW]
  exact ⟨hfirst, hlast, hkv, hrsp⟩

end Sys2Proof
end

section
/-!
PROOF. The micro-operation programs (R189, R190): which micro-operations they hold, as words and with their windows; and the
sequencer's counters (R23).
-/
namespace Sys2Proof

open Machine

/-! ## What stands in a program -/

/-- Round numbers of CIPHER's program run to `nr`, and a window starts at the round's first forward word. -/
theorem mem_cipherProgram {nr r : Nat} {u : Uop} (h : (r, u) ∈ cipherProgram nr) :
    r ≤ nr ∧ ∀ sel base, u = .addRoundKey sel base → base = 4 * r ∧ sel = .F := by
  simp only [cipherProgram, List.mem_append, List.mem_flatMap, List.mem_range', List.mem_cons, List.not_mem_nil,
    or_false, Prod.mk.injEq] at h
  obtain (⟨rfl, rfl⟩ | ⟨_, ⟨i, hi, rfl⟩, ⟨rfl, rfl⟩ | ⟨rfl, rfl⟩ | ⟨rfl, rfl⟩ | ⟨rfl, rfl⟩⟩) | ⟨rfl, rfl⟩ | ⟨rfl, rfl⟩ |
    ⟨rfl, rfl⟩ := h <;> simp <;> omega

theorem mem_decipherProgram {nr r : Nat} {u : Uop} (hnr : 0 < nr) (h : (r, u) ∈ decipherProgram nr) :
    r ≤ nr ∧ ∀ sel base, u = .addRoundKey sel base → base = 4 * r ∧ (sel = .I ↔ 1 ≤ r ∧ r ≤ nr - 1) := by
  simp only [decipherProgram, List.mem_append, List.mem_flatMap, List.mem_reverse, List.mem_range', List.mem_cons,
    List.not_mem_nil, or_false, Prod.mk.injEq] at h
  obtain (⟨rfl, rfl⟩ | ⟨_, ⟨i, hi, rfl⟩, ⟨rfl, rfl⟩ | ⟨rfl, rfl⟩ | ⟨rfl, rfl⟩ | ⟨rfl, rfl⟩⟩) | ⟨rfl, rfl⟩ | ⟨rfl, rfl⟩ |
    ⟨rfl, rfl⟩ := h <;> simp <;> omega

theorem KeySize.nr_pos (k : KeySize) : 0 < k.nr := Nat.succ_pos _

theorem KeySize.nr_le_fourteen (k : KeySize) : k.nr ≤ 14 := by cases k <;> decide

/-- Settles O50: the window of round `r` starts at `4·r`, and `r` runs to `Nr`. -/
theorem programWindowsAreAlignedAndInBounds : Obligations.ProgramWindowsAreAlignedAndInBounds := by
  intro k r base sel
  refine ⟨fun h => ?_, fun h => ?_⟩
  · obtain ⟨hr, hwindow⟩ := mem_cipherProgram h
    obtain ⟨rfl, hsel⟩ := hwindow sel base rfl
    exact ⟨Nat.mul_mod_right 4 r, Nat.mul_le_mul_left 4 (Nat.succ_le_succ hr), hsel⟩
  · obtain ⟨hr, hwindow⟩ := mem_decipherProgram k.nr_pos h
    obtain ⟨rfl, hsel⟩ := hwindow sel base rfl
    exact ⟨Nat.mul_mod_right 4 r, Nat.mul_le_mul_left 4 (Nat.succ_le_succ hr), hsel⟩

/-! ## The programs as words (R189, R190) -/

theorem word_addRoundKey_F {base : Nat} (h : base < 64) :
    Uop.word (.addRoundKey .F base) = 0x300 + BitVec.ofNat 10 base :=
  Code.uop.inj (encode_addRoundKey base h).1

theorem word_addRoundKey_I {base : Nat} (h : base < 64) :
    Uop.word (.addRoundKey .I base) = 0x340 + BitVec.ofNat 10 base :=
  Code.uop.inj (encode_addRoundKey base h).2

theorem length_cipherProgram {nr : Nat} (h : 0 < nr) : (cipherProgram nr).length = 4 * nr := by
  simp [cipherProgram, List.length_flatMap]
  omega

theorem length_decipherProgram {nr : Nat} (h : 0 < nr) : (decipherProgram nr).length = 4 * nr := by
  simp [decipherProgram, List.length_flatMap]
  omega

theorem map_word_cipherProgram {nr : Nat} (h : nr < 16) : (cipherProgram nr).map (·.2.word) =
    [0x300] ++ (List.range' 1 (nr - 1)).flatMap (fun r => [0x000, 0x100, 0x200, 0x300 + BitVec.ofNat 10 (4 * r)]) ++
      [0x000, 0x100, 0x300 + BitVec.ofNat 10 (4 * nr)] := by
  have hmiddle : ∀ r ∈ List.range' 1 (nr - 1),
      [Uop.word .subBytes, Uop.word .shiftRows, Uop.word .mixColumns, Uop.word (.addRoundKey .F (4 * r))] =
        [0x000, 0x100, 0x200, 0x300 + BitVec.ofNat 10 (4 * r)] := fun r hr => by
    have hr' := List.mem_range'_1.mp hr
    rw [word_addRoundKey_F (by omega)]
    rfl
  simp only [cipherProgram, List.map_append, List.map_flatMap, List.map_cons, List.map_nil,
    List.flatMap_congr hmiddle, word_addRoundKey_F (show 4 * nr < 64 by omega)]
  rfl

theorem map_word_decipherProgram {nr : Nat} (h : nr < 16) : (decipherProgram nr).map (·.2.word) =
    [0x300 + BitVec.ofNat 10 (4 * nr)] ++
      (List.range' 1 (nr - 1)).reverse.flatMap
        (fun r => [0x080, 0x180, 0x280, 0x340 + BitVec.ofNat 10 (4 * r)]) ++ [0x080, 0x180, 0x300] := by
  have hmiddle : ∀ r ∈ (List.range' 1 (nr - 1)).reverse,
      [Uop.word .invSubBytes, Uop.word .invShiftRows, Uop.word .invMixColumns, Uop.word (.addRoundKey .I (4 * r))] =
        [0x080, 0x180, 0x280, 0x340 + BitVec.ofNat 10 (4 * r)] := fun r hr => by
    have hr' := List.mem_range'_1.mp (List.mem_reverse.mp hr)
    rw [word_addRoundKey_I (by omega)]
    rfl
  simp only [decipherProgram, List.map_append, List.map_flatMap, List.map_cons, List.map_nil,
    List.flatMap_congr hmiddle, word_addRoundKey_F (show 4 * nr < 64 by omega)]
  rfl

/-- Settles O49: word by word, a round number of at most 14 keeping `base` in its six bits. -/
theorem uopProgramsAsWords : Obligations.UopProgramsAsWords := fun k =>
  ⟨map_word_cipherProgram (k.nr_le_fourteen.trans_lt (by decide)),
    map_word_decipherProgram (k.nr_le_fourteen.trans_lt (by decide)),
    length_cipherProgram k.nr_pos, length_decipherProgram k.nr_pos⟩

/-! ## The counters of the two loops (R23) -/

/-- What the two expansion loops share: a step keeps the key size, advances the index of its phase, ends the phase after
the last word, and does nothing more. -/
structure IsExpansionLoop (step : State → State) (phase : Nat → Sequencer) (done : Sequencer) : Prop where
  ksize : ∀ s, (step s).ksize = s.ksize
  advance : ∀ {s i}, s.seq = phase i → (step s).seq = if i + 1 < s.wlen then phase (i + 1) else done
  stop : ∀ {s}, s.seq = done → (step s).seq = done

theorem keyexpStep_isExpansionLoop : IsExpansionLoop keyexpStep .keyexp (.invkeyexp 0) where
  ksize := fun s => by cases h : s.seq <;> simp [keyexpStep, h]
  advance := fun h => by rw [keyexpStep_eq h]
  stop := fun h => by simp [keyexpStep, h]

theorem invkeyexpStep_isExpansionLoop : IsExpansionLoop invkeyexpStep .invkeyexp .idle where
  ksize := fun s => by cases h : s.seq <;> simp [invkeyexpStep, h]
  advance := fun h => by rw [invkeyexpStep_eq h]
  stop := fun h => by simp [invkeyexpStep, h]

section
variable {step : State → State} {phase : Nat → Sequencer} {done : Sequencer} {s : State} {i : Nat}

theorem IsExpansionLoop.iterate_ksize (h : IsExpansionLoop step phase done) (n : Nat) (s : State) :
    (step^[n] s).ksize = s.ksize := by
  induction n with
  | zero => rfl
  | succ n ih => rw [Function.iterate_succ_apply', h.ksize, ih]

/-- From index `i` the counter stands at `i + n` after `n` words while that is an index of the schedule, and then the
phase is over. -/
theorem IsExpansionLoop.iterate_seq (h : IsExpansionLoop step phase done) (hs : s.seq = phase i) (hi : i < s.wlen)
    (n : Nat) : (step^[n] s).seq = if i + n < s.wlen then phase (i + n) else done := by
  induction n with
  | zero => rw [Nat.add_zero, if_pos hi, Function.iterate_zero_apply, hs]
  | succ n ih =>
    have hwlen : (step^[n] s).wlen = s.wlen := congrArg KeySize.wlen (h.iterate_ksize n s)
    rw [Function.iterate_succ_apply']
    by_cases hn : i + n < s.wlen
    · rw [if_pos hn] at ih
      rw [h.advance ih, hwlen, Nat.add_assoc]
    · rw [if_neg hn] at ih
      rw [h.stop ih, if_neg (by omega)]

/-- A counter that still stands in its phase is between its start and `WLEN − 1`. -/
theorem IsExpansionLoop.counter_bounds (h : IsExpansionLoop step phase done) (hs : s.seq = phase i) (hi : i < s.wlen)
    (hinj : ∀ {j k}, phase j = phase k → j = k) (hdone : ∀ j, done ≠ phase j) {n j : Nat}
    (hj : (step^[n] s).seq = phase j) : i ≤ j ∧ j ≤ s.wlen - 1 ∧ j ≤ 59 := by
  have hmax : s.wlen ≤ 60 := by
    have := s.ksize.nr_le_fourteen
    rw [State.wlen, KeySize.wlen]
    omega
  rw [h.iterate_seq hs hi] at hj
  split at hj
  case isTrue hn =>
    have := hinj hj
    omega
  case isFalse => exact absurd hj (hdone j)

end

/-! ## The round numbers of the two programs (R23) -/

/-- A micro-operation in bounds leaves the sequencer at its round number. -/
theorem Machine.State.issue_seq {s : State} (hf : s.fault = false) (phase : Nat → Sequencer) {r : Nat} {u : Uop}
    (hu : Uop.InBounds s.wlen u) : (State.issue phase s (r, u)).seq = phase r := by
  rw [State.issue, hf, if_neg Bool.false_ne_true, State.runUop_eq (s := s.setSeq (phase r)) hf hu]
  rfl

/-- Settles O45: the two loops by their common rule, the programs by their members. -/
theorem sequencerCounters : Obligations.SequencerCounters := by
  refine ⟨fun s n => ?_, fun s n => ?_, fun s r u hf => ⟨fun h => ?_, fun h => ?_⟩, fun k => ?_⟩
  · have hseq := keyexpStep_isExpansionLoop.iterate_seq (s := s.seedForward.setSeq (.keyexp s.ksize.nk)) rfl
      (nk_lt_wlen s.ksize) n
    refine ⟨fun hn => hseq.trans (if_pos hn), fun hn => hseq.trans (if_neg (Nat.not_lt.mpr hn)), fun i hi => ?_⟩
    exact keyexpStep_isExpansionLoop.counter_bounds (s := s.seedForward.setSeq (.keyexp s.ksize.nk)) rfl
      (nk_lt_wlen s.ksize) Sequencer.keyexp.inj (fun _ => Sequencer.noConfusion) hi
  · have hpos : 0 < s.wlen := Nat.succ_pos _
    have hseq := invkeyexpStep_isExpansionLoop.iterate_seq (s := s.clearInverse.setSeq (.invkeyexp 0)) rfl hpos n
    rw [Nat.zero_add] at hseq
    refine ⟨fun hn => hseq.trans (if_pos hn), fun hn => hseq.trans (if_neg (Nat.not_lt.mpr hn)), fun i hi => ?_⟩
    exact (invkeyexpStep_isExpansionLoop.counter_bounds (s := s.clearInverse.setSeq (.invkeyexp 0)) rfl hpos
      Sequencer.invkeyexp.inj (fun _ => Sequencer.noConfusion) hi).2
  · have hr := (mem_cipherProgram h).1
    exact ⟨State.issue_seq hf .enc (cipherProgram_inBounds s.nr _ h), hr, hr.trans s.ksize.nr_le_fourteen⟩
  · have hr := (mem_decipherProgram s.ksize.nr_pos h).1
    exact ⟨State.issue_seq hf .dec (decipherProgram_inBounds s.nr _ h), hr, hr.trans s.ksize.nr_le_fourteen⟩
  · cases k <;> decide

end Sys2Proof
end

section
/-!
PROOF. The block commands: the whole next state (R184, R185), the program run through `exec` (R140), and the schedule words
that are read (R33).
-/
namespace Sys2Proof

open Machine

/-! ## The effect of a block command (R184, R185) -/

/-- After the key load of the test key, from any state: what a block command reads of it. -/
theorem Machine.exec_keyload128_example {s : State} (hf : s.fault = false) :
    ∃ t, exec (.keyload128 0x00010203 0x04050607 0x08090a0b 0x0c0d0e0f) s = .next t ∧
      t.W = (State.reset.performKeyload .k128 windowExampleKey).W ∧
      t.DW = (State.reset.performKeyload .k128 windowExampleKey).DW ∧ t.nr = 10 ∧ t.fault = false ∧ t.kv = true := by
  obtain ⟨t, he, hW, hDW, hk, hft, hkv, -⟩ :=
    exec_keyload_schedules (i := .keyload128 0x00010203 0x04050607 0x08090a0b 0x0c0d0e0f) (k := .k128)
      (key := windowExampleKey) hf rfl rfl
  exact ⟨t, he, hW, hDW, congrArg KeySize.nr hk, hft, hkv⟩

/-- The test block and its cipher text under the test key (43_orchestrator.md R184, R185). -/
theorem cipherBlock_example :
    (cipherBlock (State.reset.performKeyload .k128 windowExampleKey).W 10
      (AesState.ofBus 0x00112233445566778899aabbccddeeff)).toBus = 0x69c4e0d86a7b0430d8cdb78070b4c55a := by
  decide +kernel

theorem decipherBlock_example :
    (decipherBlock (State.reset.performKeyload .k128 windowExampleKey).W
      (State.reset.performKeyload .k128 windowExampleKey).DW 10
      (AesState.ofBus 0x69c4e0d86a7b0430d8cdb78070b4c55a)).toBus = 0x00112233445566778899aabbccddeeff := by
  decide +kernel

/-- Settles O46: the program's fold is the composition of rounds; the example's schedule comes from the reset state. -/
theorem cipherEffect : Obligations.CipherEffect := by
  refine ⟨decodeCommand_cipher, fun s block hf hk => exec_cipher_of_ok hf hk block, fun s hf => ?_⟩
  obtain ⟨t, he, hW, -, hnr, hft, hkv⟩ := exec_keyload128_example hf
  refine ⟨t, _, he, exec_cipher_of_ok hft hkv _, ?_⟩
  rw [hW, hnr, cipherBlock_example]

/-- Settles O47: as for CIPHER, over both schedules. -/
theorem decipherEffect : Obligations.DecipherEffect := by
  refine ⟨decodeCommand_decipher, fun s block hf hk => exec_decipher_of_ok hf hk block, fun s hf => ?_⟩
  obtain ⟨t, he, hW, hDW, hnr, hft, hkv⟩ := exec_keyload128_example hf
  refine ⟨t, _, he, exec_decipher_of_ok hft hkv _, ?_⟩
  rw [hW, hDW, hnr, decipherBlock_example]

/-! ## The program run through `exec` (R140) -/

/-- Micro-operations in bounds, run one by one, take `S` through the program and write nothing else. -/
theorem runInstrs_map_toInstr (program : List (Nat × Uop)) {s : State} (hf : s.fault = false)
    (hb : ∀ x ∈ program, Uop.InBounds s.wlen x.2) :
    runInstrs (program.map (·.2.toInstr)) s =
      .next { s with S := program.foldl (fun S x => Uop.onS s.W s.DW x.2 S) s.S } := by
  induction program generalizing s with
  | nil => rfl
  | cons x rest ih =>
    have hx := exec_toInstr_of_ok hf (hb x List.mem_cons_self)
    simp only [List.map_cons, runInstrs, hx]
    exact ih (s := { s with S := Uop.onS s.W s.DW x.2 s.S }) hf fun y hy => hb y (List.mem_cons_of_mem _ hy)

/-- Settles O48: the run and the command take the block through the same program. -/
theorem blockCommandIsItsUopProgram : Obligations.BlockCommandIsItsUopProgram := by
  intro s block hf hk
  have hcipher := runInstrs_map_toInstr (cipherProgram s.nr) (s := { s with S := block }) hf
    (cipherProgram_inBounds s.nr)
  have hdecipher := runInstrs_map_toInstr (decipherProgram s.nr) (s := { s with S := block }) hf
    (decipherProgram_inBounds s.nr)
  rw [foldl_onS_cipherProgram] at hcipher
  rw [foldl_onS_decipherProgram] at hdecipher
  exact ⟨⟨_, _, hcipher, exec_cipher_of_ok hf hk block, rfl, rfl⟩,
    ⟨_, _, hdecipher, exec_decipher_of_ok hf hk block, rfl, rfl⟩⟩

/-! ## The schedule words that are read (R33, R184, R185) -/

/-- The round key of round `r` is the words `4·r` to `4·r + 3`. -/
theorem roundKey_congr {X Y : List Word} {r : Nat}
    (h : ∀ i, 4 * r ≤ i → i < 4 * r + 4 → scheduleWord X i = scheduleWord Y i) : roundKey X r = roundKey Y r := by
  rw [roundKey, roundKey, windowAt, windowAt, h (4 * r) (by omega) (by omega), h (4 * r + 1) (by omega) (by omega),
    h (4 * r + 2) (by omega) (by omega), h (4 * r + 3) (by omega) (by omega)]

theorem forwardRounds_congr {X Y : List Word} {n : Nat} (h : ∀ r, 1 ≤ r → r ≤ n → roundKey X r = roundKey Y r)
    (S : AesState) : forwardRounds X n S = forwardRounds Y n S := by
  induction n with
  | zero => rfl
  | succ n ih =>
    rw [forwardRounds, forwardRounds, h (n + 1) (by omega) le_rfl, ih fun r h₁ h₂ => h r h₁ (by omega)]

theorem inverseRounds_congr {X Y : List Word} {n : Nat} (h : ∀ r, 1 ≤ r → r ≤ n → roundKey X r = roundKey Y r)
    (S : AesState) : inverseRounds X n S = inverseRounds Y n S := by
  induction n generalizing S with
  | zero => rfl
  | succ n ih =>
    rw [inverseRounds, inverseRounds, h (n + 1) (by omega) le_rfl, ih fun r h₁ h₂ => h r h₁ (by omega)]

theorem cipherBlock_congr {W W' : List Word} {nr : Nat} (h : ∀ r ≤ nr, roundKey W r = roundKey W' r)
    (block : AesState) : cipherBlock W nr block = cipherBlock W' nr block := by
  rw [cipherBlock, cipherBlock, h 0 (Nat.zero_le nr), h nr le_rfl,
    forwardRounds_congr fun r _ hr => h r (by omega)]

/-- The first and the last round read the forward schedule, the rounds between the inverse one. -/
theorem decipherBlock_congr {W W' DW DW' : List Word} {nr : Nat} (hfirst : roundKey W nr = roundKey W' nr)
    (hlast : roundKey W 0 = roundKey W' 0) (hmiddle : ∀ r, 1 ≤ r → r ≤ nr - 1 → roundKey DW r = roundKey DW' r)
    (block : AesState) : decipherBlock W DW nr block = decipherBlock W' DW' nr block := by
  rw [decipherBlock, decipherBlock, hfirst, hlast, inverseRounds_congr hmiddle]

/-- Settles O53: the words that agree are those of the round keys that the composition of rounds reads. -/
theorem deadScheduleWords : Obligations.DeadScheduleWords := by
  intro s t block hks hkt hfs hft hsize
  have hnr : t.nr = s.nr := congrArg KeySize.nr hsize.symm
  have hwlen : s.wlen = 4 * (s.nr + 1) := rfl
  refine ⟨fun hW => ⟨_, _, exec_cipher_of_ok hfs hks block, exec_cipher_of_ok hft hkt block, ?_⟩,
    fun hW hDW => ⟨_, _, exec_decipher_of_ok hfs hks block, exec_decipher_of_ok hft hkt block, ?_⟩⟩
  · have hblock := cipherBlock_congr (nr := s.nr) (fun r hr => roundKey_congr fun i _ hi => hW i (by omega)) block
    rw [hnr, hblock]
  · have hblock := decipherBlock_congr (nr := s.nr)
      (roundKey_congr fun i hlo hi => hW i (by omega) (.inr hlo))
      (roundKey_congr fun i _ hi => hW i (by omega) (.inl (by omega)))
      (fun r h₁ h₂ => roundKey_congr fun i hlo hi => hDW i (by omega) (by omega) (by omega)) block
    rw [hnr, hblock]

end Sys2Proof
end

section
/-!
PROOF. The word helper and the transforms over the field product: `subWord` (R120), the multipliers by 0B, 0D and 0E (R116 to
R118), INV_MIX_COLUMNS (R135), and the derived identities of the transforms (R130, R136, R137).
-/
namespace Sys2Proof

open Machine

/-! ## subWord (R120) -/

@[simp] theorem subWord_wordBe (x0 x1 x2 x3 : Byte) :
    subWord (wordBe x0 x1 x2 x3) = wordBe (sbox x0) (sbox x1) (sbox x2) (sbox x3) := by
  simp [subWord]

theorem subWord_rotWord (w : Word) : subWord (rotWord w) = rotWord (subWord w) := by
  rw [← wordBe_bytes w]
  simp only [rotWord_wordBe, subWord_wordBe]

/-- Settles O25: on a word's bytes `subWord` acts place by place. -/
theorem subWordSubstitutesEachByte : Obligations.SubWordSubstitutesEachByte :=
  ⟨fun _ => ⟨b0_wordBe .., b1_wordBe .., b2_wordBe .., b3_wordBe ..⟩, subWord_rotWord⟩

/-! ## The inverse mix over the field product (R116 to R118, R135) -/

/-- 0B has the bits 0, 1 and 3. -/
theorem mul0B_eq_gfMul (b : Byte) : mul0B b = gfMul 0x0B b := by
  have hsum : gfMul 0x0B b = b ^^^ xtime b ^^^ xtime (xtime (xtime b)) := by
    simp [gfMul_eq_xtimeSum, xtimeSum, List.range_succ]
  rw [hsum, mul0B]
  ac_rfl

/-- 0D has the bits 0, 2 and 3. -/
theorem mul0D_eq_gfMul (b : Byte) : mul0D b = gfMul 0x0D b := by
  have hsum : gfMul 0x0D b = b ^^^ xtime (xtime b) ^^^ xtime (xtime (xtime b)) := by
    simp [gfMul_eq_xtimeSum, xtimeSum, List.range_succ]
  rw [hsum, mul0D]
  ac_rfl

/-- 0E has the bits 1, 2 and 3. -/
theorem mul0E_eq_gfMul (b : Byte) : mul0E b = gfMul 0x0E b := by
  have hsum : gfMul 0x0E b = xtime b ^^^ xtime (xtime b) ^^^ xtime (xtime (xtime b)) := by
    simp [gfMul_eq_xtimeSum, xtimeSum, List.range_succ]
  rw [hsum, mul0E]
  ac_rfl

/-- Settles O21: the product's sum runs over the set bits of the three constants. -/
theorem inverseMixMultipliersAreFieldProducts : Obligations.InverseMixMultipliersAreFieldProducts :=
  fun b => ⟨mul0B_eq_gfMul b, mul0D_eq_gfMul b, mul0E_eq_gfMul b⟩

/-- The four formulas of R135. -/
theorem invMixCol_eq_gfMul (c : Column) : invMixCol c = {
    r0 := gfMul 0x0E c.r0 ^^^ gfMul 0x0B c.r1 ^^^ gfMul 0x0D c.r2 ^^^ gfMul 0x09 c.r3
    r1 := gfMul 0x09 c.r0 ^^^ gfMul 0x0E c.r1 ^^^ gfMul 0x0B c.r2 ^^^ gfMul 0x0D c.r3
    r2 := gfMul 0x0D c.r0 ^^^ gfMul 0x09 c.r1 ^^^ gfMul 0x0E c.r2 ^^^ gfMul 0x0B c.r3
    r3 := gfMul 0x0B c.r0 ^^^ gfMul 0x0D c.r1 ^^^ gfMul 0x09 c.r2 ^^^ gfMul 0x0E c.r3 } := by
  simp only [invMixCol, mul0E_eq_gfMul, mul0B_eq_gfMul, mul0D_eq_gfMul, mul09_eq_gfMul]

@[simp] theorem AesState.col_invMixColumns (S : AesState) (c : Fin 4) : S.invMixColumns.col c = invMixCol (S.col c) :=
  AesState.col_mapCols invMixCol S c

/-- Settles O35: column `c` of the new state is `invMixCol` of the old one, and its rows are the four formulas. -/
theorem invMixColumnsEffect : Obligations.InvMixColumnsEffect := by
  refine ⟨rfl, fun s hf => ⟨s.S.invMixColumns, exec_toInstr_of_ok (u := .invMixColumns) hf trivial, fun c => ?_⟩⟩
  have hcol := (s.S.col_invMixColumns c).trans (invMixCol_eq_gfMul _)
  exact ⟨congrArg Column.r0 hcol, congrArg Column.r1 hcol, congrArg Column.r2 hcol, congrArg Column.r3 hcol⟩

/-! ## Derived identities of the transforms (R130, R136, R137) -/

/-- XOR of columns is XOR of the words they are read as. -/
theorem Column.toWord_xor (a b : Column) : (a.xor b).toWord = a.toWord ^^^ b.toWord := by
  simp only [Column.toWord, Column.xor, wordBe, ← BitVec.xor_append]

theorem AesState.toBus_addRoundKey (S : AesState) (k : Window) :
    (S.addRoundKey k).toBus = S.toBus ^^^ (k.k0 ++ k.k1 ++ k.k2 ++ k.k3) := by
  simp only [AesState.toBus, AesState.addRoundKey, Column.toWord_xor, Column.toWord_ofWord,
    ← BitVec.xor_append]

/-- Settles O38: substitution acts byte by byte, and the key words are added column by column. -/
theorem substitutionCommutesAndKeyAdditionIsOneXor : Obligations.SubstitutionCommutesAndKeyAdditionIsOneXor :=
  ⟨AesState.shiftRows_subBytes, AesState.toBus_addRoundKey⟩

/-- Settles O39: the words of the window are transformed as `Window.invMix` does. -/
theorem inverseMixMovesThroughRoundKey : Obligations.InverseMixMovesThroughRoundKey :=
  AesState.addRoundKey_invMix

end Sys2Proof
end

section
/-!
PROOF. The field (R110, R111, R113): bytes are the polynomials of degree below 8 over the two-element field, modulo
`X^8 + X^4 + X^3 + X + 1`, and `gfMul` is the product there; from this the laws of the product, and the substitution table
as the affine image of the field inverse (R30).
-/
namespace Sys2Proof

open Machine Polynomial

/-! ## Bytes as polynomials (R110) -/

/-- The polynomial of a byte: bit `n` is the coefficient of `X^n`. -/
noncomputable def bytePoly (b : Byte) : (ZMod 2)[X] := ∑ n ∈ Finset.range 8, if b.getLsbD n then X ^ n else 0

/-- The reduction polynomial, 0x11B. -/
noncomputable def reductionPoly : (ZMod 2)[X] := X ^ 8 + X ^ 4 + X ^ 3 + X + 1

theorem coeff_bytePoly (b : Byte) (m : ℕ) : (bytePoly b).coeff m = if b.getLsbD m then 1 else 0 := by
  have hterm : ∀ n, (if b.getLsbD n then (X : (ZMod 2)[X]) ^ n else 0).coeff m =
      if n = m then if b.getLsbD m then 1 else 0 else 0 := fun n => by
    by_cases hn : n = m
    · subst hn
      by_cases hb : b.getLsbD n <;> simp [hb]
    · by_cases hb : b.getLsbD n <;> simp [hb, hn, coeff_X_pow, Ne.symm hn]
  rw [bytePoly, finsetSum_coeff, Finset.sum_congr rfl fun n _ => hterm n, Finset.sum_ite_eq']
  by_cases hm : m < 8
  · simp [hm]
  · simp [hm, BitVec.getLsbD_of_ge b m (by omega)]

theorem bytePoly_xor (a b : Byte) : bytePoly (a ^^^ b) = bytePoly a + bytePoly b := by
  ext m
  rw [coeff_add, coeff_bytePoly, coeff_bytePoly, coeff_bytePoly, BitVec.getLsbD_xor]
  cases a.getLsbD m <;> cases b.getLsbD m <;> decide

theorem bytePoly_injective : Function.Injective bytePoly := by
  intro a b h
  refine BitVec.eq_of_getLsbD_eq fun m _ => ?_
  have hm := congrArg (coeff · m) h
  simp only [coeff_bytePoly] at hm
  cases ha : a.getLsbD m <;> cases hb : b.getLsbD m <;> simp_all

theorem degree_bytePoly_lt (b : Byte) : (bytePoly b).degree < 8 :=
  (degree_lt_iff_coeff_zero _ 8).mpr fun m hm => by rw [coeff_bytePoly, BitVec.getLsbD_of_ge b m hm]; rfl

theorem degree_reductionPoly : reductionPoly.degree = 8 := by
  rw [reductionPoly]
  compute_degree!

/-- Multiplying by `X` moves every bit up and lets the top bit become `X^8`. -/
theorem X_mul_bytePoly (b : Byte) :
    X * bytePoly b = bytePoly (b <<< 1) + if b.msb then X ^ 8 else 0 := by
  ext m
  rw [BitVec.msb_eq_getLsbD_last]
  cases m with
  | zero =>
    rw [coeff_X_mul_zero, coeff_add, coeff_bytePoly]
    cases b.getLsbD 7 <;> simp [coeff_X_pow]
  | succ m =>
    rw [coeff_X_mul, coeff_add, coeff_bytePoly, coeff_bytePoly, BitVec.getLsbD_shiftLeft]
    rcases Nat.lt_trichotomy m 7 with hm | rfl | hm
    · cases b.getLsbD 7 <;> simp [coeff_X_pow, hm.ne, show m + 1 < 8 by omega]
    · cases b.getLsbD 7 <;> simp [coeff_X_pow]
    · cases b.getLsbD 7 <;> simp [coeff_X_pow, hm.ne', BitVec.getLsbD_of_ge b m hm]

theorem bytePoly_1B : bytePoly 0x1B = X ^ 4 + X ^ 3 + X + 1 := by
  simp [bytePoly, Finset.sum_range_succ]
  ring

/-! ## The field product is the product modulo the reduction polynomial (R113) -/

/-- The element of the quotient ring that a byte stands for. -/
noncomputable def byteElem (b : Byte) : AdjoinRoot reductionPoly := AdjoinRoot.mk reductionPoly (bytePoly b)

theorem byteElem_xor (a b : Byte) : byteElem (a ^^^ b) = byteElem a + byteElem b := by
  rw [byteElem, bytePoly_xor, map_add]
  rfl

/-- Two bytes differ by a polynomial of too small a degree to be a multiple of the reduction polynomial. -/
theorem byteElem_injective : Function.Injective byteElem := by
  intro a b h
  have hdvd : reductionPoly ∣ bytePoly a - bytePoly b := AdjoinRoot.mk_eq_mk.mp h
  have hdeg : (bytePoly a - bytePoly b).degree < reductionPoly.degree := by
    rw [degree_reductionPoly]
    exact (degree_sub_le _ _).trans_lt (max_lt (degree_bytePoly_lt a) (degree_bytePoly_lt b))
  exact bytePoly_injective (sub_eq_zero.mp (eq_zero_of_dvd_of_degree_lt hdvd hdeg))

/-- In the quotient ring `X^8` is `X^4 + X^3 + X + 1`, the polynomial of 0x1B. -/
theorem mk_X_pow_eight : AdjoinRoot.mk reductionPoly (X ^ 8) = byteElem 0x1B := by
  rw [byteElem, bytePoly_1B, AdjoinRoot.mk_eq_mk, CharTwo.sub_eq_add, reductionPoly]
  exact dvd_of_eq (by ring)

theorem byteElem_xtime (b : Byte) : byteElem (xtime b) = AdjoinRoot.root reductionPoly * byteElem b := by
  have hshift : AdjoinRoot.root reductionPoly * byteElem b =
      byteElem (b <<< 1) + AdjoinRoot.mk reductionPoly (if b.msb then X ^ 8 else 0) := by
    rw [byteElem, byteElem, ← map_add, ← X_mul_bytePoly, map_mul, AdjoinRoot.mk_X]
  rw [hshift, xtime]
  cases b.msb
  case false => simp
  case true => rw [if_pos rfl, if_pos rfl, mk_X_pow_eight, byteElem_xor]

theorem byteElem_iterate_xtime (n : ℕ) (b : Byte) :
    byteElem (xtime^[n] b) = AdjoinRoot.root reductionPoly ^ n * byteElem b := by
  induction n with
  | zero => rw [Function.iterate_zero_apply, pow_zero, one_mul]
  | succ n ih => rw [Function.iterate_succ_apply', byteElem_xtime, ih, pow_succ', mul_assoc]

theorem byteElem_zero : byteElem 0 = 0 := by
  simp [byteElem, bytePoly]

theorem byteElem_one : byteElem 1 = 1 := by
  simp [byteElem, bytePoly]

/-- A byte is the sum of the powers of the root over its set bits. -/
theorem byteElem_eq_sum (k : Byte) : byteElem k =
    ∑ n ∈ Finset.range 8, if k.getLsbD n then AdjoinRoot.root reductionPoly ^ n else 0 := by
  simp only [byteElem, bytePoly, map_sum, apply_ite (AdjoinRoot.mk reductionPoly), map_pow, AdjoinRoot.mk_X, map_zero]

/-- The loop's sum is the product of `b` with the bits of `k` looked at so far. -/
theorem byteElem_xtimeSum (k b : Byte) (m : ℕ) : byteElem (xtimeSum k b m) =
    (∑ n ∈ Finset.range m, if k.getLsbD n then AdjoinRoot.root reductionPoly ^ n else 0) * byteElem b := by
  induction m with
  | zero =>
    rw [Finset.sum_range_zero, zero_mul]
    exact byteElem_zero
  | succ m ih =>
    rw [xtimeSum_succ, Finset.sum_range_succ, add_mul, ← ih]
    by_cases hk : k.getLsbD m
    · rw [if_pos hk, if_pos hk, byteElem_xor, byteElem_iterate_xtime]
    · rw [if_neg hk, if_neg hk, zero_mul, add_zero]

theorem byteElem_gfMul (k b : Byte) : byteElem (gfMul k b) = byteElem k * byteElem b := by
  rw [gfMul_eq_xtimeSum, byteElem_xtimeSum, ← byteElem_eq_sum]

/-- Settles O22: the two polynomials are the same element of the quotient ring. -/
theorem gfMulIsThePolynomialProduct : Obligations.GfMulIsThePolynomialProduct := fun k b =>
  AdjoinRoot.mk_eq_mk.mp ((map_mul _ _ _).trans (byteElem_gfMul k b).symm)

/-! ## The laws of the product (R111, R113) -/

theorem gfMul_xor (k a b : Byte) : gfMul k (a ^^^ b) = gfMul k a ^^^ gfMul k b :=
  byteElem_injective (by simp only [byteElem_gfMul, byteElem_xor, mul_add])

theorem gfMul_zero (k : Byte) : gfMul k 0 = 0 :=
  byteElem_injective (by rw [byteElem_gfMul, byteElem_zero, mul_zero])

theorem one_gfMul (b : Byte) : gfMul 1 b = b :=
  byteElem_injective (by rw [byteElem_gfMul, byteElem_one, one_mul])

theorem gfMul_comm (a b : Byte) : gfMul a b = gfMul b a :=
  byteElem_injective (by rw [byteElem_gfMul, byteElem_gfMul, mul_comm])

theorem gfMul_assoc (a b c : Byte) : gfMul a (gfMul b c) = gfMul (gfMul a b) c :=
  byteElem_injective (by simp only [byteElem_gfMul, mul_assoc])

/-! ## The field inverse and the substitution table (R30) -/

/-- The affine image of R30. -/
def affine (a : Byte) : Byte :=
  a ^^^ a.rotateLeft 1 ^^^ a.rotateLeft 2 ^^^ a.rotateLeft 3 ^^^ a.rotateLeft 4 ^^^ 0x63

/-- The field inverse of a nonzero byte, read off the substitution table by undoing the affine image. -/
def fieldInv (x : Byte) : Byte := (sbox x).rotateLeft 1 ^^^ (sbox x).rotateLeft 3 ^^^ (sbox x).rotateLeft 6 ^^^ 0x05

/-- Every entry of the printed table but the first, multiplied out. -/
theorem fieldInv_gfMul : ∀ x : Byte, x ≠ 0 → gfMul (fieldInv x) x = 1 := by
  decide

theorem affine_fieldInv (x : Byte) : affine (fieldInv x) = sbox x :=
  (by decide : ∀ s : Byte, affine (s.rotateLeft 1 ^^^ s.rotateLeft 3 ^^^ s.rotateLeft 6 ^^^ 0x05) = s) (sbox x)

/-- The field inverse is unique. -/
theorem eq_fieldInv_of_gfMul_eq_one {a x : Byte} (h : gfMul a x = 1) : a = fieldInv x := by
  have hx : x ≠ 0 := by
    rintro rfl
    exact absurd ((gfMul_zero a).symm.trans h) (by decide)
  calc a = gfMul (gfMul (fieldInv x) x) a := by rw [fieldInv_gfMul x hx, one_gfMul]
    _ = gfMul (fieldInv x) (gfMul a x) := by rw [← gfMul_assoc, gfMul_comm x a]
    _ = fieldInv x := by rw [h, gfMul_comm, one_gfMul]

theorem gfMul_bijective {k : Byte} (hk : k ≠ 0) : Function.Bijective (gfMul k) := by
  have hleft : Function.LeftInverse (gfMul (fieldInv k)) (gfMul k) := fun b => by
    rw [gfMul_assoc, fieldInv_gfMul k hk, one_gfMul]
  exact Finite.injective_iff_bijective.mp hleft.injective

/-- Settles O23: the laws of the quotient ring, and a field inverse for every nonzero byte. -/
theorem fieldMultiplicationLaws : Obligations.FieldMultiplicationLaws :=
  ⟨fun _ => gfMul_bijective, gfMul_xor, gfMul_zero, one_gfMul, gfMul_comm, gfMul_assoc⟩

/-- Settles O26: the tables byte by byte, and the one field inverse of each byte. -/
theorem substitutionTables : Obligations.SubstitutionTables := by
  refine ⟨invSbox_sbox, sbox_invSbox, by decide, fun a x h => ?_⟩
  obtain rfl := eq_fieldInv_of_gfMul_eq_one h
  exact (affine_fieldInv x).symm

end Sys2Proof
end
